-- ==== Sys2Proof/Word.lean ====
section
/-! DEFINITION. The word types of the core: the byte of the byte buffers and the 16-bit timing.
Cursors, lengths and timing magnitudes are natural numbers, because the spec's arithmetic is exact
and never wraps (00_scope.md R7, R8). -/

namespace Sys2Proof

/-- One byte of `IN`, `MID` or `OUT`, a number in 0..255 (00_scope.md R7). -/
abbrev Byte := BitVec 8

/-- One element of `TOUT`: an unsigned 16-bit timing, 0..65535 (10_state.md R20, R21). -/
abbrev Timing := BitVec 16

end Sys2Proof
end

