-- ==== Sys2Proof/Config.lean ====
section
/-! DEFINITION. The constants the source fixes (00_scope.md R5) and the parameters it leaves to the
implementation (00_scope.md R6; 92_eei_decisions.md D4, D5, D13), as plain data. -/

namespace Sys2Proof.Config

/-- `TIMING_MAX`: largest timing value, the clamp target (R5). -/
abbrev timingMax : Nat := 65535
/-- `LIT_MIN`: least literal block data length (R5). -/
abbrev litMin : Nat := 1
/-- `LIT_MAX`: greatest literal block data length (R5). -/
abbrev litMax : Nat := 32
/-- `REF_MIN`: least reference length and the encoder's match threshold (R5). -/
abbrev refMin : Nat := 3
/-- `REF_MAX`: greatest reference length and the matcher's length cap (R5). -/
abbrev refMax : Nat := 264
/-- `DIST_MIN`: least reference distance (R5). -/
abbrev distMin : Nat := 1
/-- `WINDOW`: greatest reference distance and the matcher's window (R5). -/
abbrev window : Nat := 8192
/-- `LEVEL_DEFAULT`: the compression level when the host sets none (R5). -/
abbrev levelDefault : BitVec 4 := 2

/-- Granularity of a step (00_scope.md R13, D13): a `COMP`, `DECOMP`, `ENCRAW` or `DECRAW` started
by the host runs as one step, or as the step machines of R152 and R183. Nothing the host can
observe depends on it. -/
inductive Grain where
  | whole
  | stepwise
  deriving DecidableEq, Repr

/-- The open parameters (R6; collected at the end of 92_eei_decisions.md). `none` is "unbounded",
the spec's default for each. Every rule holds for every value; no step changes them. -/
structure Params where
  capTin   : Option Nat := none
  capIn    : Option Nat := none
  capMid   : Option Nat := none
  capOut   : Option Nat := none
  capTout  : Option Nat := none
  tinWidth : Option Nat := none
  grain    : Grain := .whole
  deriving DecidableEq, Repr

/-- The values R6 allows: a finite `TIN_WIDTH` is at least 17 bits; capacities are free. -/
def Params.ok (p : Params) : Bool :=
  match p.tinWidth with
  | none => true
  | some w => decide (17 ≤ w)

end Sys2Proof.Config
end

