-- ==== Sys2Proof/Syntax.lean ====
section
/-! DEFINITION. The instructions: one constructor per row of spec/opcode_table.json. The three
block instructions carry the fields of their encoding (30_encoding.md R72 to R74); the nine host
operations have no operand bits, their operands are registers and buffers (30_encoding.md R86). -/

namespace Sys2Proof

inductive Instr where
  /-- `LIT` (R72, R172): the data bytes after the header. -/
  | lit (data : List Byte)
  /-- `REF` (R73, R173): length field `Lf`, high distance bits `Dhi`, low distance byte `Dlo`. -/
  | ref (lf : BitVec 3) (dhi : BitVec 5) (dlo : Byte)
  /-- `REFX` (R74, R174): high distance bits `Dhi`, continuation byte `C`, low distance byte `Dlo`. -/
  | refx (dhi : BitVec 5) (c : Byte) (dlo : Byte)
  /-- `SER`, operation code 1 (R100). -/
  | ser
  /-- `DES`, operation code 2 (R105). -/
  | des
  /-- `MATCH`, operation code 3 (R130). -/
  | wmatch
  /-- `EMITL`, operation code 4 (R140). -/
  | emitl
  /-- `EMITR`, operation code 5 (R143). -/
  | emitr
  /-- `COMP`, operation code 6 (R146). -/
  | comp
  /-- `DECOMP`, operation code 7 (R170). -/
  | decomp
  /-- `ENCRAW`, operation code 8 (R200). -/
  | encraw
  /-- `DECRAW`, operation code 9 (R201). -/
  | decraw
  deriving DecidableEq, Repr

end Sys2Proof
end

