-- ==== Sys2Proof/Machine/Operands.lean ====
section
/-! DEFINITION. Operand forms: the timing pair (30_encoding.md R70, 40_timing_serializer.md R101,
R102) and the lengths and distances of reference blocks, encoder side and decoder side
(30_encoding.md R75, R76). All arithmetic is exact on naturals (00_scope.md R8). -/

namespace Sys2Proof.Machine

/-- The clamp `t' = min(t, 65535)` (R101): saturating, never modulo. -/
def clamp (t : Nat) : Nat := min t Config.timingMax

/-- Format `T16` (R70, R102): low byte first, then high byte, of a timing `t <= 65535`. -/
def pairBytes (t : Nat) : List Byte := [BitVec.ofNat 8 (t &&& 0xFF), BitVec.ofNat 8 (t >>> 8)]

/-- A timing read back from its pair (R105): `b0 | (b1 << 8)`. -/
def pairTiming (b0 b1 : Byte) : Timing := BitVec.ofNat 16 (b0.toNat ||| (b1.toNat <<< 8))

/-- The number of data bytes of a literal block with header field `d5` (R76): `d5 + 1`. -/
def litCount (d5 : BitVec 5) : Nat := d5.toNat + 1

/-- Copy length of the short form (R76): `Lf + 2`. -/
def refLength (lf : BitVec 3) : Nat := lf.toNat + 2

/-- Copy length of the extended form (R76): `7 + c + 2`. -/
def refxLength (c : Byte) : Nat := 7 + c.toNat + 2

/-- Distance of a reference block (R76): `((Dhi << 8) | Dlo) + 1`. -/
def refDistance (dhi : BitVec 5) (dlo : Byte) : Nat := ((dhi.toNat <<< 8) ||| dlo.toNat) + 1

/-- The bytes of a literal block (R72, R140): header `len - 1`, then the data. -/
def litBytes (data : List Byte) : List Byte := BitVec.ofNat 8 (data.length - 1) :: data

/-- The bytes of a reference block (R75, R143) for operands in range: with `Lv = length - 2` and
`Dv = distance - 1`, three bytes when `Lv >= 7` and two otherwise. -/
def refBytes (length distance : Nat) : List Byte :=
  if 7 ≤ length - 2 then
    [BitVec.ofNat 8 ((7 <<< 5) ||| ((distance - 1) >>> 8)), BitVec.ofNat 8 (length - 2 - 7),
      BitVec.ofNat 8 ((distance - 1) &&& 0xFF)]
  else
    [BitVec.ofNat 8 (((length - 2) <<< 5) ||| ((distance - 1) >>> 8)),
      BitVec.ofNat 8 ((distance - 1) &&& 0xFF)]

end Sys2Proof.Machine
end

