-- ==== Sys2Proof/WellFormed.lean ====
section
/-! DEFINITION. Which terms of `Instr` have an encoding (30_encoding.md R77, R80). -/

namespace Sys2Proof

/-- A literal block has 1 to 32 data bytes (R72, R141); the short reference form has a length field
1..6, since 0 would read back as `LIT` and 7 as `REFX` (R73; 90_conflicts.md C8). Every field value
of `REFX` is legal (R79). -/
def Instr.wf : Instr → Bool
  | .lit data => decide (Config.litMin ≤ data.length) && decide (data.length ≤ Config.litMax)
  | .ref lf _ _ => decide (lf ≠ 0) && decide (lf ≠ 7)
  | .refx _ _ _ => true
  | .ser => true
  | .des => true
  | .wmatch => true
  | .emitl => true
  | .emitr => true
  | .comp => true
  | .decomp => true
  | .encraw => true
  | .decraw => true

end Sys2Proof
end

