-- ==== Sys2Proof/Decode.lean ====
section
/-! DEFINITION. Decoding and encoding, from the tables of 30_encoding.md sections 2 to 8. There are
two encoding spaces: the block stream (bytes at `IN[rp]`) and the host operation code (the 4-bit
register `OP`). Decoding is total and rejects by name. -/

namespace Sys2Proof

/-- The two encoding spaces of opcode_table.json ("space"). -/
inductive Space where
  | stream
  | command
  deriving DecidableEq, Repr

/-- Why a decoder refuses. -/
inductive DecodeError where
  /-- No byte at all: the end of the stream (R178), no instruction here. -/
  | empty
  /-- The header asks for more bytes than there are (43_block_decoder.md R177). -/
  | truncated
  /-- Operation code 0 or 10..15 (60_exceptions.md R233). -/
  | badOp
  /-- A byte offered as an operation code has bits above the 4 bits of `OP`. -/
  | notFourBits
  deriving DecidableEq, Repr

/-- The `L` field, header bits 7:5 (R71). -/
def headerL (h : Byte) : BitVec 3 := h.extractLsb' 5 3

/-- The `D5` field, header bits 4:0 (R71). -/
def headerD (h : Byte) : BitVec 5 := h.extractLsb' 0 5

/-- A header byte from its two fields (R71). -/
def headerByte (l : BitVec 3) (d : BitVec 5) : Byte := l ++ d

/-- Size in bytes of the block with header `h`, told from the header alone (R78). -/
def blockSize (h : Byte) : Nat :=
  if headerL h = 0 then (headerD h).toNat + 2
  else if headerL h = 7 then 3
  else 2

/-- Decode one block from the front of a stream (R71 to R74, R76): the instruction and the rest. -/
def decodeBlock : List Byte → Except DecodeError (Instr × List Byte)
  | [] => .error .empty
  | h :: t =>
    if headerL h = 0 then
      if t.length < (headerD h).toNat + 1 then .error .truncated
      else .ok (.lit (t.take ((headerD h).toNat + 1)), t.drop ((headerD h).toNat + 1))
    else if headerL h = 7 then
      match t with
      | c :: b2 :: rest => .ok (.refx (headerD h) c b2, rest)
      | [_] => .error .truncated
      | [] => .error .truncated
    else
      match t with
      | b1 :: rest => .ok (.ref (headerL h) (headerD h) b1, rest)
      | [] => .error .truncated

/-- Decode the operation code register (R86; R233 for the codes that select nothing). -/
def decodeOp (op : BitVec 4) : Except DecodeError Instr :=
  match op.toNat with
  | 1 => .ok .ser
  | 2 => .ok .des
  | 3 => .ok .wmatch
  | 4 => .ok .emitl
  | 5 => .ok .emitr
  | 6 => .ok .comp
  | 7 => .ok .decomp
  | 8 => .ok .encraw
  | 9 => .ok .decraw
  | _ => .error .badOp

/-- Decode in a space: a block from the stream, or an operation code held in the low 4 bits of one
byte whose high 4 bits are 0. -/
def decode : Space → List Byte → Except DecodeError (Instr × List Byte)
  | .stream, bs => decodeBlock bs
  | .command, [] => .error .empty
  | .command, b :: rest =>
    if b.toNat < 16 then
      match decodeOp (b.setWidth 4) with
      | .ok i => .ok (i, rest)
      | .error e => .error e
    else .error .notFourBits

/-- The space an instruction is encoded in. -/
def Instr.space : Instr → Space
  | .lit _ => .stream
  | .ref _ _ _ => .stream
  | .refx _ _ _ => .stream
  | .ser => .command
  | .des => .command
  | .wmatch => .command
  | .emitl => .command
  | .emitr => .command
  | .comp => .command
  | .decomp => .command
  | .encraw => .command
  | .decraw => .command

/-- The bytes of a well-formed instruction (R72 to R74 for blocks, R86 for operation codes). -/
def encode : Instr → List Byte
  | .lit data => headerByte 0 (BitVec.ofNat 5 (data.length - 1)) :: data
  | .ref lf dhi dlo => [headerByte lf dhi, dlo]
  | .refx dhi c dlo => [headerByte 7 dhi, c, dlo]
  | .ser => [1]
  | .des => [2]
  | .wmatch => [3]
  | .emitl => [4]
  | .emitr => [5]
  | .comp => [6]
  | .decomp => [7]
  | .encraw => [8]
  | .decraw => [9]

/-- Encoded size in bytes: `n + 1`, 2 or 3 for a block (R72 to R74), one byte holding the 4 bits of
`OP` for an operation. -/
def Instr.size : Instr → Nat
  | .lit data => data.length + 1
  | .ref _ _ _ => 2
  | .refx _ _ _ => 3
  | .ser => 1
  | .des => 1
  | .wmatch => 1
  | .emitl => 1
  | .emitr => 1
  | .comp => 1
  | .decomp => 1
  | .encraw => 1
  | .decraw => 1

/-- The assembler's `REF length, distance` (R75, R87): the short form up to length 8, the extended
form from 9; no assembly outside the operand ranges. -/
def assembleRef (length distance : Nat) : Option Instr :=
  if length < Config.refMin ∨ Config.refMax < length then none
  else if distance < Config.distMin ∨ Config.window < distance then none
  else if length - 2 ≤ 6 then
    some (.ref (BitVec.ofNat 3 (length - 2)) (BitVec.ofNat 5 ((distance - 1) >>> 8))
      (BitVec.ofNat 8 ((distance - 1) &&& 0xFF)))
  else
    some (.refx (BitVec.ofNat 5 ((distance - 1) >>> 8)) (BitVec.ofNat 8 (length - 2 - 7))
      (BitVec.ofNat 8 ((distance - 1) &&& 0xFF)))

/-- `chunkLits j run`: the first `j` literal blocks of at most 32 bytes cut from the start of a run. -/
def chunkLits : Nat → List Byte → List Instr
  | 0, _ => []
  | j + 1, run => .lit (run.take Config.litMax) :: chunkLits j (run.drop Config.litMax)

/-- The pseudo-instruction `LITS` (R88): full blocks of 32 bytes, then one shorter block if bytes
remain; nothing for an empty run. -/
def lits (run : List Byte) : List Instr := chunkLits ((run.length + 31) / 32) run

/-- The disassembler (R89) with a bound on the number of blocks: the blocks read, and the reason it
stopped (`none` at the end of the stream). -/
def disassembleUpTo : Nat → List Byte → List Instr × Option DecodeError
  | 0, _ => ([], none)
  | k + 1, bs =>
    match bs with
    | [] => ([], none)
    | b :: t =>
      match decodeBlock (b :: t) with
      | .error e => ([], some e)
      | .ok (i, rest) => (i :: (disassembleUpTo k rest).1, (disassembleUpTo k rest).2)

/-- The disassembler over a whole stream (R89); a block has at least 2 bytes, so a stream has no
more blocks than bytes. -/
def disassemble (bs : List Byte) : List Instr × Option DecodeError :=
  disassembleUpTo bs.length bs

/-- The bytes of a table word, first byte in bits 7..0 (the table's numbering), `k` of them. -/
def wordBytes : Nat → Nat → List Byte
  | 0, _ => []
  | k + 1, w => BitVec.ofNat 8 w :: wordBytes k (w >>> 8)

/-- The longest instruction in bytes: a literal block of 32 data bytes (R78). -/
def longestInstr : Nat := 33

/-- Which encoding space a table word belongs to. The spec's two spaces overlap as numbers: a word of
at most 4 bits, or of one byte with value 1..9, is read as an operation code; every other word is a
block (DESIGN CHOICE, notes/assumptions/5.md). -/
def wordSpace (nbits w : Nat) : Space :=
  if nbits ≤ 4 ∨ (nbits ≤ 8 ∧ 1 ≤ w ∧ w ≤ 9) then .command else .stream

/-- The bytes laid out for a table word: the `nbits` given bits, every later byte 0, up to the
longest instruction. -/
def tableWordBytes (nbits w : Nat) : List Byte := wordBytes longestInstr (w % 2 ^ nbits)

/-- The instruction the decoder reads from a table word (see `wordSpace`). -/
def decodeTableWord (nbits w : Nat) : Option Instr :=
  match decode (wordSpace nbits w) (tableWordBytes nbits w) with
  | .ok (i, _) => some i
  | .error _ => none

end Sys2Proof
end

