-- ==== Sys2Proof/Machine/State.lean ====
section
/-! DEFINITION. The state of the core as plain data (10_state.md), its reset value (10_state.md R37),
and the reasons a step can stop. -/

namespace Sys2Proof.Machine

/-- Register `ST` (10_state.md R29). -/
inductive Status where
  /-- 0 `IDLE`: no operation has run since reset. -/
  | idle
  /-- 1 `BUSY`: an operation is running. -/
  | busy
  /-- 2 `DONE`: the last operation ended without error. -/
  | done
  /-- 3 `ERR`: the last operation ended with an error. -/
  | err
  deriving DecidableEq, Repr

/-- Register `ERR`: the cause of the last operation's error (10_state.md R30; 60_exceptions.md R231). -/
inductive Cause where
  /-- 0: no error. -/
  | eNone
  /-- 1: truncated block. -/
  | eTrunc
  /-- 2: odd-length raw payload. -/
  | eOdd
  /-- 3: out-of-range back-reference. -/
  | eBackref
  /-- 4: an operand outside the range its encoding can carry. -/
  | eInvariant
  /-- 5: a buffer's capacity would be exceeded. -/
  | eCapacity
  /-- 6: `START` with an `OP` that selects no operation. -/
  | eBadOp
  deriving DecidableEq, Repr

/-- The byte buffer an encoder or deserializer stage reads: `IN`, or `MID` inside `ENCRAW` and
`DECRAW` (10_state.md R20). -/
inductive Src where
  | inp
  | mid
  deriving DecidableEq, Repr

/-- The byte buffer a stage appends to: `OUT`, or `MID` inside `ENCRAW` and `DECRAW` (R20). -/
inductive Sink where
  | out
  | mid
  deriving DecidableEq, Repr

/-- What a running operation does next (the model's own sequencer, notes/assumptions/4.md). Outside
`BUSY` it is `op`. -/
inductive Seq where
  /-- Fetch the operation code in `OP` and run it. -/
  | op
  /-- `ENCRAW`'s first stage: serialize `TIN` into `MID` (R200). -/
  | ser
  /-- The encoder's loop over a source (R152). -/
  | enc (src : Src)
  /-- The block decoder's loop into a sink (R183): fetch the block at `IN[rp]` and run it. -/
  | dec (sink : Sink)
  /-- `DECRAW`'s second stage: deserialize `MID` into `TOUT` (R201). -/
  | des
  deriving DecidableEq, Repr

/-- A move of the host (70_reset_and_hazards.md R261) or of the platform (R260). Only the `RW`
registers of 10_state.md section 4 can be written. -/
inductive HostMove where
  | writeOp (v : BitVec 4)
  | writeLevel (v : BitVec 4)
  | writePos (v : Nat)
  | writeElen (v : BitVec 9)
  | writeEdist (v : BitVec 14)
  /-- Write `TIN` and `TIN_LEN` together. -/
  | writeTin (xs : List Nat)
  /-- Rewrite one valid element of `TIN`. -/
  | writeTinAt (i t : Nat)
  /-- Write `TIN_LEN` alone: a valid prefix of `TIN` stays. -/
  | writeTinLen (n : Nat)
  /-- Write `IN` and `IN_LEN` together. -/
  | writeIn (xs : List Byte)
  /-- Rewrite one valid element of `IN`. -/
  | writeInAt (i : Nat) (b : Byte)
  /-- Write `IN_LEN` alone: a valid prefix of `IN` stays. -/
  | writeInLen (n : Nat)
  /-- Issue `START` (R34). -/
  | start
  /-- Read registers or buffers: changes nothing (20_memory.md R57); allowed while `BUSY` (R263). -/
  | read
  /-- The platform's reset event (R260), possible in any state. -/
  | reset
  deriving DecidableEq, Repr

/-- The five buffers (10_state.md R20). Each is the sequence of its valid elements; its length
register is the sequence's length (R37), and an element beyond it does not exist. -/
structure Memory where
  tin  : List Nat
  inp  : List Byte
  mid  : List Byte
  out  : List Byte
  tout : List Timing
  deriving DecidableEq, Repr

/-- The whole state: 10_state.md sections 1, 2 and 4, and the model's own `par`, `seq`, `host`. -/
structure State where
  /-- The open parameters (00_scope.md R6); no step changes them (notes/assumptions/2.md). -/
  par        : Config.Params
  /-- The buffers and, by their lengths, `TIN_LEN`, `IN_LEN`, `MID_LEN`, `OUT_LEN`, `TOUT_LEN`. -/
  mem        : Memory
  /-- `OP` (R27). -/
  op         : BitVec 4
  /-- `LEVEL` (R28). -/
  level      : BitVec 4
  /-- `ST` (R29). -/
  st         : Status
  /-- `ERR` (R30). -/
  err        : Cause
  /-- `ERRPOS` (R30). -/
  errpos     : Nat
  /-- `POS` (R31): the cursor of a standalone `MATCH`. -/
  posReg     : Nat
  /-- `ELEN` (R32). -/
  elen       : BitVec 9
  /-- `EDIST` (R32). -/
  edist      : BitVec 14
  /-- `M_FOUND` (R31). -/
  mFound     : Bool
  /-- `M_LEN` (R31). -/
  mLen       : BitVec 9
  /-- `M_DIST` (R31). -/
  mDist      : BitVec 14
  /-- `pos`, the encoder's cursor (R22). -/
  pos        : Nat
  /-- `block_start`, the start of the pending literal run (R22). -/
  blockStart : Nat
  /-- `rp`, the block decoder's read pointer (R24). -/
  rp         : Nat
  /-- `L` (R24). -/
  lReg       : BitVec 9
  /-- `D` (R24). -/
  dReg       : BitVec 14
  /-- What a running operation does next (notes/assumptions/4.md). -/
  seq        : Seq
  /-- The host's moves yet to be made, oldest first (notes/assumptions/3.md). -/
  host       : List HostMove
  deriving DecidableEq, Repr

/-- A stop with a fault. No instruction raises one. -/
inductive Fault where
  /-- Raised by a host write to an element of `TIN` or `IN`, or of a length, beyond the length
  register: the element does not exist (20_memory.md R51; 93_implementation_defined.md U4). Safe. -/
  | elementBeyondLength
  deriving DecidableEq, Repr

/-- A stop with a refusal. No instruction raises one. -/
inductive Refusal where
  /-- Raised by an arm of `exec` whose instruction has no meaning yet; no arm is left so. Safe. -/
  | notModelled (mnemonic : String)
  /-- Raised by a host write of a timing that a finite `TIN_WIDTH` cannot represent
  (93_implementation_defined.md U6, U7; 92_eei_decisions.md D5). Safe. -/
  | timingTooWide
  deriving DecidableEq, Repr

/-- The state after reset for given parameters (10_state.md R37): everything 0 but `LEVEL` = 2, no
element valid in any buffer. -/
def State.resetWith (p : Config.Params) : State where
  par := p
  mem := { tin := [], inp := [], mid := [], out := [], tout := [] }
  op := 0
  level := Config.levelDefault
  st := .idle
  err := .eNone
  errpos := 0
  posReg := 0
  elen := 0
  edist := 0
  mFound := false
  mLen := 0
  mDist := 0
  pos := 0
  blockStart := 0
  rp := 0
  lReg := 0
  dReg := 0
  seq := .op
  host := []

/-- The machine right after reset (R37, R260), with the default parameters (R6) and no host move
pending. -/
def State.reset : State := State.resetWith { }

end Sys2Proof.Machine
end

