-- ==== Sys2Proof/Machine/Flags.lean ====
section
/-! DEFINITION. The flag-like state (10_state.md R26): the codes of `ST` and `ERR`, the error kinds
behind the cause codes, and the matcher's result flag with its two result registers. -/

namespace Sys2Proof.Machine

/-- The 2-bit value of `ST` (R29). -/
def Status.code : Status → BitVec 2
  | .idle => 0
  | .busy => 1
  | .done => 2
  | .err => 3

/-- The 3-bit value of `ERR` (60_exceptions.md R231); 7 is never written. -/
def Cause.code : Cause → BitVec 3
  | .eNone => 0
  | .eTrunc => 1
  | .eOdd => 2
  | .eBackref => 3
  | .eInvariant => 4
  | .eCapacity => 5
  | .eBadOp => 6

/-- The kind of an error (60_exceptions.md R230, R231): the source's `FormatError`, or one of the
spec's own. `EncodeError` has no cause inside the core and `DecodeError` belongs to the glue. -/
inductive ErrorKind where
  | formatError
  | specError
  deriving DecidableEq, Repr

/-- The kind of each cause (R231). -/
def Cause.kind : Cause → Option ErrorKind
  | .eNone => none
  | .eTrunc => some .formatError
  | .eOdd => some .formatError
  | .eBackref => some .formatError
  | .eInvariant => some .specError
  | .eCapacity => some .specError
  | .eBadOp => some .specError

/-- Whether `ERRPOS` records a block's header index for this cause (R30, R231); otherwise it is 0. -/
def Cause.hasPos : Cause → Bool
  | .eTrunc => true
  | .eBackref => true
  | .eNone => false
  | .eOdd => false
  | .eInvariant => false
  | .eCapacity => false
  | .eBadOp => false

/-- `M_FOUND`, `M_LEN`, `M_DIST <- 0` (10_state.md R34; 60_exceptions.md R235). -/
def State.clearMatch (s : State) : State := { s with mFound := false, mLen := 0, mDist := 0 }

/-- The matcher's result registers from its result (41_window_matcher.md R130). -/
def State.setMatch (r : Option (Nat × Nat)) (s : State) : State :=
  match r with
  | none => s.clearMatch
  | some (len, dist) =>
    { s with mFound := true, mLen := BitVec.ofNat 9 len, mDist := BitVec.ofNat 14 dist }

end Sys2Proof.Machine
end

