-- ==== Sys2Proof/Machine/Ops.lean ====
section
/-! DEFINITION. The named operations over buffers and registers: reads and appends (00_scope.md R9,
R10; 20_memory.md), capacities (60_exceptions.md R232), error entry (60_exceptions.md R235), the
normal end of an operation, and `START` (10_state.md R34), which is also the way out of an error
(60_exceptions.md R236). -/

namespace Sys2Proof.Machine

/-! ### Capacities and widths -/

/-- A length within a capacity parameter; `none` is unbounded (R232). -/
def fits (cap : Option Nat) (n : Nat) : Bool :=
  match cap with
  | none => true
  | some c => decide (n ≤ c)

/-- A magnitude that `TIN_WIDTH` bits can hold (00_scope.md R6). -/
def timingFits (width : Option Nat) (t : Nat) : Bool :=
  match width with
  | none => true
  | some w => decide (t < 2 ^ w)

/-- The form of the buffers that every step keeps: no append has passed a capacity (R232) and every
element of `TIN` is representable (R20). `TIN_LEN` and `IN_LEN` may pass their capacity: the next
`START` then ends with `E_CAPACITY` (R232). -/
def Memory.wf (p : Config.Params) (m : Memory) : Bool :=
  fits p.capMid m.mid.length && fits p.capOut m.out.length && fits p.capTout m.tout.length &&
    m.tin.all (timingFits p.tinWidth)

/-- A byte buffer as (address, byte) pairs, addresses rising from 0 (20_memory.md R50): the same
data as the sequence, an unlisted address being an element that does not exist (R51). -/
def cells (b : List Byte) : List Host.Cell := (b.zipIdx).map fun x => (x.2, x.1)

/-! ### The length registers, views of the buffers (R33, R37) -/

/-- `TIN_LEN`. -/
def State.tinLen (s : State) : Nat := s.mem.tin.length
/-- `IN_LEN`. -/
def State.inLen (s : State) : Nat := s.mem.inp.length
/-- `MID_LEN`. -/
def State.midLen (s : State) : Nat := s.mem.mid.length
/-- `OUT_LEN`. -/
def State.outLen (s : State) : Nat := s.mem.out.length
/-- `TOUT_LEN`. -/
def State.toutLen (s : State) : Nat := s.mem.tout.length

/-! ### Reads and appends -/

/-- `MemRead(B, a, n)` (00_scope.md R10): the elements at indices `a .. a+n-1`. Elements beyond the
length do not exist; every use is inside the length (20_memory.md R51). -/
def memRead {α : Type} (b : List α) (a n : Nat) : List α := (b.drop a).take n

/-- The byte buffer a stage reads. -/
def State.srcBuf (k : Src) (s : State) : List Byte :=
  match k with
  | .inp => s.mem.inp
  | .mid => s.mem.mid

/-- The byte buffer a stage appends to. -/
def State.sinkBuf (k : Sink) (s : State) : List Byte :=
  match k with
  | .out => s.mem.out
  | .mid => s.mem.mid

/-- The capacity of a byte buffer a stage appends to. -/
def State.sinkCap (k : Sink) (s : State) : Option Nat :=
  match k with
  | .out => s.par.capOut
  | .mid => s.par.capMid

/-- Replace the contents of a byte buffer a stage appends to. -/
def State.setSink (k : Sink) (b : List Byte) (s : State) : State :=
  match k with
  | .out => { s with mem := { s.mem with out := b } }
  | .mid => { s with mem := { s.mem with mid := b } }

/-- `MemWrite(B, B_LEN, n, v)` (00_scope.md R10): append to `OUT` or `MID`; an append that would pass
the capacity is not performed and is the error `E_CAPACITY` (R232). -/
def State.push (k : Sink) (xs : List Byte) (s : State) : Except Cause State :=
  if fits (s.sinkCap k) ((s.sinkBuf k).length + xs.length) then
    .ok (s.setSink k (s.sinkBuf k ++ xs))
  else .error .eCapacity

/-- Append to `TOUT`, with the same capacity rule (R232). -/
def State.pushTimings (xs : List Timing) (s : State) : Except Cause State :=
  if fits s.par.capTout (s.mem.tout.length + xs.length) then
    .ok { s with mem := { s.mem with tout := s.mem.tout ++ xs } }
  else .error .eCapacity

/-- No result element is valid: `OUT_LEN`, `TOUT_LEN`, `MID_LEN <- 0` (R34, R235). -/
def State.clearBuffers (s : State) : State :=
  { s with mem := { s.mem with mid := [], out := [], tout := [] } }

/-! ### The end of an operation -/

/-- Error entry (60_exceptions.md R235), the one way an operation ends in error: `ERR` and `ERRPOS`
record the cause, every result is withdrawn, `ST <- ERR`; the inputs are untouched. -/
def State.raise (e : Cause) (pos : Nat) (s : State) : State :=
  { s.clearBuffers.clearMatch with err := e, errpos := pos, st := .err, seq := .op }

/-- The normal end: `ST <- DONE` (10_state.md R29). -/
def State.finish (s : State) : State := { s with st := .done, seq := .op }

/-- Continue with the state a checked stage gives, or enter the error it raises from `s`. -/
def State.settle (s : State) (pos : Nat) (r : Except Cause State) : State :=
  match r with
  | .ok t => t
  | .error e => s.raise e pos

/-! ### START, and with it the return from an error (R34, R236) -/

/-- Where a started operation begins: at its operation code, or, under stepwise granularity, at the
step machine of R152 or R183 (00_scope.md R13). -/
def startSeq (g : Config.Grain) (i : Instr) : Seq :=
  match g with
  | .whole => .op
  | .stepwise =>
    match i with
    | .comp => .enc .inp
    | .decomp => .dec .out
    | .encraw => .ser
    | .decraw => .dec .mid
    | .lit _ | .ref _ _ _ | .refx _ _ _ | .ser | .des | .wmatch | .emitl | .emitr => .op

/-- The register writes of `START` (R34). -/
def State.startEffects (s : State) : State :=
  { s.clearBuffers.clearMatch with
    st := .busy, err := .eNone, errpos := 0, pos := 0, blockStart := 0, rp := 0, lReg := 0,
    dReg := 0, seq := .op }

/-- `START` (R34): the register writes, then the checks that end an operation at once, in their
order (R234): an `OP` that selects nothing (R233), then the input lengths against their capacities
(R232). -/
def State.startOp (s : State) : State :=
  match decodeOp s.op with
  | .error _ => s.startEffects.raise .eBadOp 0
  | .ok i =>
    if fits s.par.capTin s.tinLen && fits s.par.capIn s.inLen then
      { s.startEffects with seq := startSeq s.par.grain i }
    else s.startEffects.raise .eCapacity 0

end Sys2Proof.Machine
end

