-- ==== Sys2Proof/Machine/Decoder.lean ====
section
/-! DEFINITION. The LZ77 block decoder (43_block_decoder.md): the copy, the three block instructions
`LIT`, `REF`, `REFX`, and one step of the read loop of `DECOMP` (R183). -/

namespace Sys2Proof.Machine

/-- Where the block decoder appends: `MID` inside `DECRAW`, `OUT` otherwise (R170, R201). -/
def State.sink (s : State) : Sink :=
  match s.seq with
  | .dec k => k
  | .op => .out
  | .ser => .out
  | .enc _ => .out
  | .des => .out

/-- `copy_back` (R175): `n` times, read the byte `dist` places behind the current end and append it,
so that a later byte may read one this copy wrote (70_reset_and_hazards.md R264). -/
def copyBack (k : Sink) (dist : Nat) : Nat → State → Except Cause State
  | 0, s => .ok s
  | n + 1, s =>
    match s.push k (memRead (s.sinkBuf k) ((s.sinkBuf k).length - dist) 1) with
    | .error e => .error e
    | .ok t => copyBack k dist n t

/-- Run a block of `size` bytes at `rp`: `E_TRUNC` at its header if the stream has fewer bytes left
(R177), else its body; an error of the body is recorded at the header when its cause has a position
(60_exceptions.md R231). -/
def runBlockAt (size : Nat) (body : State → Except Cause State) (s : State) : State :=
  if s.inLen - s.rp < size then s.raise .eTrunc s.rp
  else
    match body s with
    | .error e => s.raise e (if e.hasPos then s.rp else 0)
    | .ok t => { t with rp := s.rp + size }

/-- The body of `REF` and `REFX` (R173 to R176): reject a distance beyond what has been produced,
before anything is appended; else copy. `L` and `D` have grown to the length and the distance
(10_state.md R24). -/
def refBody (k : Sink) (length distance : Nat) (s : State) : Except Cause State :=
  if (s.sinkBuf k).length < distance then .error .eBackref
  else copyBack k distance length
    { s with lReg := BitVec.ofNat 9 length, dReg := BitVec.ofNat 14 distance }

/-- The effect of `LIT` (R172): append the data bytes. -/
def litEffect (data : List Byte) (s : State) : State :=
  runBlockAt (data.length + 1)
    (fun s => State.push s.sink data { s with lReg := 0, dReg := BitVec.ofNat 14 (data.length - 1) }) s

/-- The effect of `REF` (R173). -/
def refEffect (lf : BitVec 3) (dhi : BitVec 5) (dlo : Byte) (s : State) : State :=
  runBlockAt 2 (fun s => refBody s.sink (refLength lf) (refDistance dhi dlo) s) s

/-- The effect of `REFX` (R174). -/
def refxEffect (dhi : BitVec 5) (c dlo : Byte) (s : State) : State :=
  runBlockAt 3 (fun s => refBody s.sink (refxLength c) (refDistance dhi dlo) s) s

/-- `LIT` (R172). -/
def execLit (data : List Byte) (s : State) : Host.Outcome State Fault Refusal :=
  .next (litEffect data s)

/-- `REF` (R173). -/
def execRef (lf : BitVec 3) (dhi : BitVec 5) (dlo : Byte) (s : State) :
    Host.Outcome State Fault Refusal :=
  .next (refEffect lf dhi dlo s)

/-- `REFX` (R174). -/
def execRefx (dhi : BitVec 5) (c dlo : Byte) (s : State) : Host.Outcome State Fault Refusal :=
  .next (refxEffect dhi c dlo s)

/-- The effect of a decoded block. The stream decoder gives only the three block instructions; an
operation code is no block (30_encoding.md R71) and would be `E_BADOP`. -/
def blockEffect (i : Instr) (s : State) : State :=
  match i with
  | .lit data => litEffect data s
  | .ref lf dhi dlo => refEffect lf dhi dlo s
  | .refx dhi c dlo => refxEffect dhi c dlo s
  | .ser | .des | .wmatch | .emitl | .emitr | .comp | .decomp | .encraw | .decraw =>
    s.raise .eBadOp 0

/-- One step of the read loop (R170, R171, R183). Bytes left: fetch and decode the block at `rp` and
run it, `E_TRUNC` at its header if it runs past the end (R177). None left: the decoder has ended,
`DONE` for `DECOMP` (R178), the deserializer's stage for `DECRAW` (R201, R202). -/
def decStep (k : Sink) (s : State) : State :=
  if s.rp < s.inLen then
    match decodeBlock (s.mem.inp.drop s.rp) with
    | .ok (i, _) => blockEffect i s
    | .error _ => s.raise .eTrunc s.rp
  else
    match k with
    | .out => s.finish
    | .mid => { s with seq := .des }

end Sys2Proof.Machine
end

