-- ==== Sys2Proof/Machine/Matcher.lean ====
section
/-! DEFINITION. The LZ77 window matcher and the operation `MATCH` (41_window_matcher.md): the
exhaustive search of R121 to R124 (R127 leaves the method free, not the result). -/

namespace Sys2Proof.Machine

/-- Number of equal leading elements of two sequences, at most `cap`: counting stops at the first
mismatch (R123 a). -/
def runLength {α : Type} [DecidableEq α] : Nat → List α → List α → Nat
  | 0, _, _ => 0
  | _ + 1, [], _ => 0
  | _ + 1, _ :: _, [] => 0
  | cap + 1, x :: xs, y :: ys => if x = y then runLength cap xs ys + 1 else 0

/-- The two caps on a match length (R122, R123 c): 264 and the remaining input length. -/
def matchCap (data : List Byte) (pos : Nat) : Nat := min Config.refMax (data.length - pos)

/-- `match_length(d)` (R122): how far the bytes from `pos` agree with the bytes from `pos - d`. The
second run may reach past `pos` (R123 b). -/
def matchLength (data : List Byte) (pos d : Nat) : Nat :=
  runLength (matchCap data pos) (data.drop pos) (data.drop (pos - d))

/-- The loop of R124 over `k` further candidates from distance `d` up, keeping the best pair so far;
a candidate replaces it only when strictly longer, so ties keep the smaller distance. -/
def searchFrom (data : List Byte) (pos : Nat) : Nat → Nat → Nat × Nat → Nat × Nat
  | 0, _, best => best
  | k + 1, d, best =>
    if best.1 < matchLength data pos d then
      searchFrom data pos k (d + 1) (matchLength data pos d, d)
    else searchFrom data pos k (d + 1) best

/-- `match(data, pos)` (R120, R124, R125): `none` exactly at `pos = 0`, otherwise the longest match
among the distances `1 .. min(pos, 8192)` (R121), nearest first on ties. -/
def matchAt (data : List Byte) (pos : Nat) : Option (Nat × Nat) :=
  if pos = 0 then none
  else some (searchFrom data pos (min pos Config.window - 1) 2 (matchLength data pos 1, 1))

/-- `MATCH` (R130): query the matcher on `IN` at `POS`; a cursor beyond the buffer is `E_INVARIANT`
(R131). -/
def execMatch (s : State) : Host.Outcome State Fault Refusal :=
  .next (if s.inLen < s.posReg then s.raise .eInvariant 0
    else (s.setMatch (matchAt s.mem.inp s.posReg)).finish)

end Sys2Proof.Machine
end

