-- ==== Sys2Proof/Machine/Encoder.lean ====
section
/-! DEFINITION. The LZ77 block encoder (42_block_encoder.md): the primitives `emit_lit`, `emit_ref`,
`flush`, the operations `EMITL` and `EMITR`, and one step of the driver `COMP` (R152). -/

namespace Sys2Proof.Machine

/-- `emit_lit` (R140, R141): a literal block of 1 to 32 bytes, anything else is `E_INVARIANT`. -/
def emitLit (data : List Byte) : Except Cause (List Byte) :=
  if data.length < Config.litMin ∨ Config.litMax < data.length then .error .eInvariant
  else .ok (litBytes data)

/-- `emit_ref` (R143, R144): a reference block for operands in range, anything else is
`E_INVARIANT`; no field is masked to fit. -/
def emitRef (length distance : Nat) : Except Cause (List Byte) :=
  if length < Config.refMin ∨ Config.refMax < length then .error .eInvariant
  else if distance < Config.distMin ∨ Config.window < distance then .error .eInvariant
  else .ok (refBytes length distance)

/-- The first `j` blocks of a literal run, each of at most 32 bytes (R142). -/
def flushChunks : Nat → List Byte → Except Cause (List Byte)
  | 0, _ => .ok []
  | j + 1, run =>
    match emitLit (run.take Config.litMax) with
    | .error e => .error e
    | .ok block =>
      match flushChunks j (run.drop Config.litMax) with
      | .error e => .error e
      | .ok blocks => .ok (block ++ blocks)

/-- `flush` (R142): a literal run of any length as `ceil(k / 32)` literal blocks, full blocks first. -/
def flush (run : List Byte) : Except Cause (List Byte) :=
  flushChunks ((run.length + 31) / 32) run

/-- Emit a checked byte sequence: append it to `OUT` (R152, the chain of `flush` and `emit_ref`). -/
def State.emit (r : Except Cause (List Byte)) (s : State) : Except Cause State :=
  match r with
  | .error e => .error e
  | .ok bytes => s.push .out bytes

/-- The pending literal run `data[block_start .. pos)` of the encoder (R147). -/
def State.pendingRun (src : Src) (s : State) : List Byte :=
  memRead (s.srcBuf src) s.blockStart (s.pos - s.blockStart)

/-- The encoder takes a match at its cursor (R147): flush the pending run, emit the reference, move
past the match. -/
def takeMatch (src : Src) (len dist : Nat) (s : State) : Except Cause State :=
  match s.emit (flush (s.pendingRun src)) with
  | .error e => .error e
  | .ok t =>
    match t.emit (emitRef len dist) with
    | .error e => .error e
    | .ok u => .ok { u with pos := s.pos + len, blockStart := s.pos + len }

/-- The encoder's last act (R149, R150): flush a run and end. -/
def flushAndFinish (run : List Byte) (s : State) : State :=
  match s.emit (flush run) with
  | .error e => s.raise e 0
  | .ok t => t.finish

/-- One step of the encoder's loop (R146, R152). Level 0: flush the whole input (R149). Otherwise
query the matcher at the cursor; a result of length 3 or more is taken (R148), any other extends the
pending run; at the end of the input flush what is pending (R150). -/
def encStep (src : Src) (s : State) : State :=
  if s.level = 0 then flushAndFinish (s.srcBuf src) s
  else if s.pos < (s.srcBuf src).length then
    match matchAt (s.srcBuf src) s.pos with
    | none => { s with pos := s.pos + 1 }
    | some (len, dist) =>
      if Config.refMin ≤ len then s.settle 0 (takeMatch src len dist s)
      else { s with pos := s.pos + 1 }
  else flushAndFinish (s.pendingRun src) s

/-- `EMITL` (R140): one literal block of the whole of `IN`. -/
def execEmitl (s : State) : Host.Outcome State Fault Refusal :=
  .next (match s.emit (emitLit s.mem.inp) with
    | .error e => s.raise e 0
    | .ok t => t.finish)

/-- `EMITR` (R143): one reference block of `ELEN`, `EDIST`. -/
def execEmitr (s : State) : Host.Outcome State Fault Refusal :=
  .next (match s.emit (emitRef s.elen.toNat s.edist.toNat) with
    | .error e => s.raise e 0
    | .ok t => t.finish)

end Sys2Proof.Machine
end

