-- ==== Sys2Proof/Machine/Serializer.lean ====
section
/-! DEFINITION. The timing serializer: operations `SER` and `DES` (40_timing_serializer.md). -/

namespace Sys2Proof.Machine

/-- The result function of `SER` (R100): for each timing, its clamped pair. -/
def ser (signal : List Nat) : List Byte := signal.flatMap fun t => pairBytes (clamp t)

/-- The loop of `SER` over a signal (R100), appending one pair per timing to a sink. -/
def serLoop (k : Sink) : List Nat → State → Except Cause State
  | [], s => .ok s
  | t :: ts, s =>
    match s.push k (pairBytes (clamp t)) with
    | .ok s' => serLoop k ts s'
    | .error e => .error e

/-- The pairs of a payload, read from index 0 in steps of 2 (R105, R106): `E_ODD` at a read boundary
where one byte remains. -/
def des : List Byte → Except Cause (List Timing)
  | [] => .ok []
  | [_] => .error .eOdd
  | b0 :: b1 :: rest =>
    match des rest with
    | .ok ts => .ok (pairTiming b0 b1 :: ts)
    | .error e => .error e

/-- The loop of `DES` (R105): at every read boundary the parity test of R106, then one timing
appended to `TOUT`. -/
def desLoop : List Byte → State → Except Cause State
  | [], s => .ok s
  | [_], _ => .error .eOdd
  | b0 :: b1 :: rest, s =>
    if rest.length % 2 ≠ 0 then .error .eOdd
    else
      match s.pushTimings [pairTiming b0 b1] with
      | .ok s' => desLoop rest s'
      | .error e => .error e

/-- `SER` (R100): serialize `TIN` into `OUT`. -/
def execSer (s : State) : Host.Outcome State Fault Refusal :=
  .next (match serLoop .out s.mem.tin s with
    | .ok t => t.finish
    | .error e => s.raise e 0)

/-- `DES` (R105): deserialize `IN` into `TOUT`. -/
def execDes (s : State) : Host.Outcome State Fault Refusal :=
  .next (match desLoop s.mem.inp s with
    | .ok t => t.finish
    | .error e => s.raise e 0)

end Sys2Proof.Machine
end

