-- ==== Sys2Proof/Machine/Chain.lean ====
section
/-! DEFINITION. The looping operations `COMP` (42_block_encoder.md R146), `DECOMP`
(43_block_decoder.md R170) and the composites `ENCRAW`, `DECRAW` (44_codec_chain_and_properties.md
R200 to R202): the step machines of R152 and R183 run to the end of the operation. -/

namespace Sys2Proof.Machine

/-- `ENCRAW`'s first stage (R200): serialize `TIN` into `MID`, then the encoder at the start of
`MID`. -/
def serStage (s : State) : State :=
  match serLoop .mid s.mem.tin s with
  | .error e => s.raise e 0
  | .ok t => { t with seq := .enc .mid, pos := 0, blockStart := 0 }

/-- `DECRAW`'s second stage (R201): deserialize `MID` into `TOUT`. -/
def desStage (s : State) : State :=
  match desLoop s.mem.mid s with
  | .error e => s.raise e 0
  | .ok t => t.finish

/-- One step of a running operation inside its step machine; at its operation code there is none. -/
def microStep (s : State) : State :=
  match s.seq with
  | .op => s
  | .ser => serStage s
  | .enc src => encStep src s
  | .dec k => decStep k s
  | .des => desStage s

/-- Steps of a running operation until it ends, at most `fuel` of them. -/
def runBusy : Nat → State → State
  | 0, s => s
  | fuel + 1, s => if s.st = .busy then runBusy fuel (microStep s) else s

/-- `COMP` (R146): the encoder's loop on `IN` from `pos = block_start = 0`; at most `n + 1` steps
(R152). -/
def execComp (s : State) : Host.Outcome State Fault Refusal :=
  .next (runBusy (s.inLen + 1)
    { s with st := .busy, seq := .enc .inp, pos := 0, blockStart := 0 })

/-- `DECOMP` (R170): the read loop on `IN` into `OUT` from `rp = 0`; at most `n / 2 + 1` steps
(R183). -/
def execDecomp (s : State) : Host.Outcome State Fault Refusal :=
  .next (runBusy (s.inLen + 1) { s with st := .busy, seq := .dec .out, rp := 0 })

/-- `ENCRAW` (R200): serialize `TIN` into `MID`, then the encoder's loop on `MID`. -/
def execEncraw (s : State) : Host.Outcome State Fault Refusal :=
  .next (runBusy (s.midLen + 2 * s.tinLen + 2) { s with st := .busy, seq := .ser })

/-- `DECRAW` (R201): the read loop on `IN` into `MID`, then the deserializer on `MID`. -/
def execDecraw (s : State) : Host.Outcome State Fault Refusal :=
  .next (runBusy (s.inLen + 2) { s with st := .busy, seq := .dec .mid, rp := 0 })

end Sys2Proof.Machine
end

