-- ==== Sys2Proof/Machine/Dispatch.lean ====
section
/-! DEFINITION. The dispatch: one arm per instruction. -/

namespace Sys2Proof.Machine

/-- The effect of one instruction: a block on the running decoder, or a whole host operation. -/
def exec (i : Instr) (s : State) : Host.Outcome State Fault Refusal :=
  match i with
  | .lit data => Sys2Proof.Machine.execLit data s
  | .ref lf dhi dlo => Sys2Proof.Machine.execRef lf dhi dlo s
  | .refx dhi c dlo => Sys2Proof.Machine.execRefx dhi c dlo s
  | .ser => Sys2Proof.Machine.execSer s
  | .des => Sys2Proof.Machine.execDes s
  | .wmatch => Sys2Proof.Machine.execMatch s
  | .emitl => Sys2Proof.Machine.execEmitl s
  | .emitr => Sys2Proof.Machine.execEmitr s
  | .comp => Sys2Proof.Machine.execComp s
  | .decomp => Sys2Proof.Machine.execDecomp s
  | .encraw => Sys2Proof.Machine.execEncraw s
  | .decraw => Sys2Proof.Machine.execDecraw s

end Sys2Proof.Machine
end

