-- ==== Sys2Proof/Machine/HostPort.lean ====
section
/-! DEFINITION. The host's side of the core: its moves (70_reset_and_hazards.md R260 to R263) and
what it can read (10_state.md section 4). -/

namespace Sys2Proof.Machine

/-- Write `TIN` and `TIN_LEN` (R33, R261): elements must be representable in `TIN_WIDTH` bits. -/
def hostWriteTin (xs : List Nat) (s : State) : Host.Outcome State Fault Refusal :=
  if xs.all (timingFits s.par.tinWidth) then .next { s with mem := { s.mem with tin := xs } }
  else .refused .timingTooWide

/-- Rewrite one element of `TIN` below `TIN_LEN` (R262); an element beyond does not exist. -/
def hostWriteTinAt (i t : Nat) (s : State) : Host.Outcome State Fault Refusal :=
  if s.tinLen ≤ i then .fault .elementBeyondLength
  else if timingFits s.par.tinWidth t then
    .next { s with mem := { s.mem with tin := s.mem.tin.set i t } }
  else .refused .timingTooWide

/-- Write `TIN_LEN` alone (R33): a prefix of `TIN` stays valid; elements beyond do not exist. -/
def hostWriteTinLen (n : Nat) (s : State) : Host.Outcome State Fault Refusal :=
  if s.tinLen < n then .fault .elementBeyondLength
  else .next { s with mem := { s.mem with tin := s.mem.tin.take n } }

/-- Write `IN` and `IN_LEN` (R33, R261). -/
def hostWriteIn (xs : List Byte) (s : State) : Host.Outcome State Fault Refusal :=
  .next { s with mem := { s.mem with inp := xs } }

/-- Rewrite one byte of `IN` below `IN_LEN` (R262); a byte beyond does not exist. -/
def hostWriteInAt (i : Nat) (b : Byte) (s : State) : Host.Outcome State Fault Refusal :=
  if s.inLen ≤ i then .fault .elementBeyondLength
  else .next { s with mem := { s.mem with inp := s.mem.inp.set i b } }

/-- Write `IN_LEN` alone (R33): a prefix of `IN` stays valid; bytes beyond do not exist. -/
def hostWriteInLen (n : Nat) (s : State) : Host.Outcome State Fault Refusal :=
  if s.inLen < n then .fault .elementBeyondLength
  else .next { s with mem := { s.mem with inp := s.mem.inp.take n } }

/-- The reset event (R260): every register at its reset value; the parameters and the host, which are
no part of the core, stay. -/
def State.resetEvent (s : State) : State := { State.resetWith s.par with host := s.host }

/-- The effect of one host move on a core that is not `BUSY`. -/
def hostMove (m : HostMove) (s : State) : Host.Outcome State Fault Refusal :=
  match m with
  | .writeOp v => .next { s with op := v }
  | .writeLevel v => .next { s with level := v }
  | .writePos v => .next { s with posReg := v }
  | .writeElen v => .next { s with elen := v }
  | .writeEdist v => .next { s with edist := v }
  | .writeTin xs => hostWriteTin xs s
  | .writeTinAt i t => hostWriteTinAt i t s
  | .writeTinLen n => hostWriteTinLen n s
  | .writeIn xs => hostWriteIn xs s
  | .writeInAt i b => hostWriteInAt i b s
  | .writeInLen n => hostWriteInLen n s
  | .start => .next s.startOp
  | .read => .next s
  | .reset => .next s.resetEvent

/-- The registers a host can name (10_state.md R27 to R33); `MID_LEN` is internal. -/
inductive HostReg where
  | op | level | st | err | errpos | pos | mFound | mLen | mDist | elen | edist
  | tinLen | inLen | outLen | toutLen
  deriving DecidableEq, Repr

/-- The value of a named register. -/
def State.regValue (r : HostReg) (s : State) : Nat :=
  match r with
  | .op => s.op.toNat
  | .level => s.level.toNat
  | .st => s.st.code.toNat
  | .err => s.err.code.toNat
  | .errpos => s.errpos
  | .pos => s.posReg
  | .mFound => s.mFound.toNat
  | .mLen => s.mLen.toNat
  | .mDist => s.mDist.toNat
  | .elen => s.elen.toNat
  | .edist => s.edist.toNat
  | .tinLen => s.tinLen
  | .inLen => s.inLen
  | .outLen => s.outLen
  | .toutLen => s.toutLen

/-- What a host read of a register gives: while `ST = BUSY` only `ST` is meaningful (R263). -/
def State.hostRead (r : HostReg) (s : State) : Option Nat :=
  if s.st = .busy ∧ r ≠ .st then none else some (s.regValue r)

/-- What a host read of `OUT[i]` gives (R262): only elements below `OUT_LEN` exist, and none is
meaningful while `BUSY`. -/
def State.hostReadOut (i : Nat) (s : State) : Option Byte :=
  if s.st = .busy then none else s.mem.out[i]?

/-- What a host read of `IN[i]` gives: the input stays where the host put it (R262), so after an error
the host can read the block at `ERRPOS` (60_exceptions.md R231). -/
def State.hostReadIn (i : Nat) (s : State) : Option Byte :=
  if s.st = .busy then none else s.mem.inp[i]?

/-- What a host read of `TOUT[i]` gives (R262). -/
def State.hostReadTout (i : Nat) (s : State) : Option Timing :=
  if s.st = .busy then none else s.mem.tout[i]?

end Sys2Proof.Machine
end

