-- ==== Sys2Proof/Machine/Step.lean ====
section
/-! DEFINITION. One step of the machine: a step of the running operation while `ST = BUSY`, else the
host's next move; reset in any state. -/

namespace Sys2Proof.Machine

/-- A read of the host, which is its only move while `BUSY` besides reset (70_reset_and_hazards.md
R263), passes beside the core's step. -/
def State.passRead (s : State) : State :=
  match s.host with
  | .read :: rest => { s with host := rest }
  | _ => s

/-- One step of a running operation: at its operation code, fetch `OP`, decode it and run it; inside
a step machine, one step of it (R152, R183). -/
def busyStep (s : State) : Host.Outcome State Fault Refusal :=
  match s.seq with
  | .op =>
    match decodeOp s.op with
    | .ok i => exec i s
    | .error _ => .next (s.raise .eBadOp 0)
  | .ser => .next (microStep s)
  | .enc _ => .next (microStep s)
  | .dec _ => .next (microStep s)
  | .des => .next (microStep s)

/-- One step. A reset at the head of the host's moves acts in any state (R260). While `BUSY` the core
runs and any other host move waits (R263). Otherwise the host's next move is made; with none, the
idle core does nothing (60_exceptions.md R242). -/
def step (s : State) : Host.Outcome State Fault Refusal :=
  match s.host with
  | .reset :: rest => .next ({ s with host := rest }).resetEvent
  | host =>
    if s.st = .busy then busyStep s.passRead
    else
      match host with
      | [] => .next s
      | m :: rest => hostMove m { s with host := rest }

/-- The bytes of a table word stored over `IN` from the block decoder's read pointer on. -/
def overwriteIn (rp : Nat) (bytes inp : List Byte) : List Byte :=
  inp.take rp ++ bytes ++ inp.drop (rp + bytes.length)

/-- The state in which the very next step runs the instruction of a table word (see `wordSpace`). An
operation: its code in `OP` and the core as `START` leaves it at its operation code. A block: its
bytes in `IN` at `rp` and the block decoder running. No host move is pending, so none preempts. -/
def State.withFetchWord (s : State) (nbits w : Nat) : State :=
  match wordSpace nbits w with
  | .command => { s with op := BitVec.ofNat 4 w, st := .busy, seq := .op, host := [] }
  | .stream =>
    { s with
      mem := { s.mem with inp := overwriteIn s.rp (tableWordBytes nbits w) s.mem.inp }
      rp := min s.rp s.mem.inp.length
      op := match s.sink with
        | .out => 7
        | .mid => 9
      st := .busy
      seq := .dec s.sink
      host := [] }

end Sys2Proof.Machine
end

