-- ==== Sys2Proof/Machine/Result.lean ====
section
/-! DEFINITION. The result functions of the looping operations, the normative level of the spec
(00_scope.md R13), on sequences alone: no registers, no capacities. The machine's own loops are in
Chain.lean; that they give these results is stated, not assumed. -/

namespace Sys2Proof.Machine

/-- The blocks of the encoder from a cursor on, level non-zero (42_block_encoder.md R146, R152), with
a bound on the number of cursor positions visited. -/
def compFrom (data : List Byte) : Nat → Nat → Nat → Except Cause (List Byte)
  | 0, pos, bs => flush (memRead data bs (pos - bs))
  | k + 1, pos, bs =>
    if pos < data.length then
      match matchAt data pos with
      | none => compFrom data k (pos + 1) bs
      | some (len, dist) =>
        if Config.refMin ≤ len then do
          let run ← flush (memRead data bs (pos - bs))
          let block ← emitRef len dist
          let rest ← compFrom data k (pos + len) (pos + len)
          .ok (run ++ block ++ rest)
        else compFrom data k (pos + 1) bs
    else flush (memRead data bs (pos - bs))

/-- `comp(data, level)` (R146): `flush(data)` at level 0, else the greedy loop; it visits at most one
cursor position per byte. -/
def comp (data : List Byte) (level : BitVec 4) : Except Cause (List Byte) :=
  if level = 0 then flush data else compFrom data data.length 0 0

/-- `copied(out, len, dist)` (43_block_decoder.md R175, R183): each new byte equals the one `dist`
places before it in the sequence being built. -/
def copied (out : List Byte) : Nat → Nat → List Byte
  | 0, _ => out
  | len + 1, dist => copied (out ++ memRead out (out.length - dist) 1) len dist

/-- The configuration-to-result function of R183 with a bound on the number of blocks: the output, or
the cause of the first failing block and the index of its header. Written on numbers, from the step
table of R183, not through the block decoder of Decode.lean. -/
def decompFrom (s : List Byte) : Nat → Nat → List Byte → Except (Cause × Nat) (List Byte)
  | 0, _, out => .ok out
  | k + 1, rp, out =>
    match s.drop rp with
    | [] => .ok out
    | h :: t =>
      let l := h.toNat >>> 5
      let d := h.toNat &&& 0x1F
      if l = 0 then
        if t.length < d + 1 then .error (.eTrunc, rp)
        else decompFrom s k (rp + 1 + (d + 1)) (out ++ t.take (d + 1))
      else if l ≤ 6 then
        match t with
        | [] => .error (.eTrunc, rp)
        | b1 :: _ =>
          if out.length < ((d <<< 8) ||| b1.toNat) + 1 then .error (.eBackref, rp)
          else decompFrom s k (rp + 2) (copied out (l + 2) (((d <<< 8) ||| b1.toNat) + 1))
      else
        match t with
        | [] => .error (.eTrunc, rp)
        | [_] => .error (.eTrunc, rp)
        | c :: b2 :: _ =>
          if out.length < ((d <<< 8) ||| b2.toNat) + 1 then .error (.eBackref, rp)
          else decompFrom s k (rp + 3) (copied out (c.toNat + 9) (((d <<< 8) ||| b2.toNat) + 1))

/-- `decomp(s)` (R170, R183): a block has at least 2 bytes, so a stream has no more blocks than
bytes. -/
def decomp (s : List Byte) : Except (Cause × Nat) (List Byte) := decompFrom s s.length 0 []

/-- `encraw(signal, level) = comp(ser(signal), level)` (44_codec_chain_and_properties.md R200). -/
def encraw (signal : List Nat) (level : BitVec 4) : Except Cause (List Byte) :=
  comp (ser signal) level

/-- `decraw(c) = des(decomp(c))` (R201, R202): the first stage's error wins; the deserializer's error
has position 0. -/
def decraw (c : List Byte) : Except (Cause × Nat) (List Timing) :=
  match decomp c with
  | .error e => .error e
  | .ok payload =>
    match des payload with
    | .error e => .error (e, 0)
    | .ok signal => .ok signal

end Sys2Proof.Machine
end

