-- ==== Sys2Proof/Safety.lean ====
section
/-! DEFINITION. The terms in which claims about the machine are stated: the invariant of its states,
what a step keeps, and what a safe run is. -/

namespace Sys2Proof.Machine

/-- The invariant that reset establishes and every step keeps. -/
structure State.Inv (s : State) : Prop where
  /-- No append passed a capacity; every element of `TIN` is representable (60_exceptions.md R232). -/
  memory_wf : Memory.wf s.par s.mem = true
  /-- Outside `BUSY` the sequencer rests. -/
  rests : s.st ≠ .busy → s.seq = .op
  /-- `ERR` holds a cause exactly in `ST = ERR` (10_state.md R29, R30). -/
  err_iff : s.err ≠ .eNone ↔ s.st = .err
  /-- `ERRPOS` is 0 but for `E_TRUNC` and `E_BACKREF` (10_state.md R30). -/
  errpos_zero : s.err.hasPos = false → s.errpos = 0
  /-- No partial result after an error (10_state.md R33). -/
  err_empty : s.st = .err → s.mem.out = [] ∧ s.mem.tout = [] ∧ s.mem.mid = []
  /-- Nothing is valid before the first operation (10_state.md R29, R37). -/
  idle_empty : s.st = .idle → s.mem.out = [] ∧ s.mem.tout = [] ∧ s.mem.mid = []
  /-- Without a match the matcher's results are 0 (10_state.md R31). -/
  not_found : s.mFound = false → s.mLen = 0 ∧ s.mDist = 0
  /-- A match is reported only in `DONE`, within the ranges of 10_state.md R31. -/
  found : s.mFound = true →
    s.st = .done ∧ s.mLen.toNat ≤ 264 ∧ 1 ≤ s.mDist.toNat ∧ s.mDist.toNat ≤ 8192
  /-- A running operation's inputs are within their capacities (60_exceptions.md R232). -/
  busy_inputs : s.st = .busy →
    fits s.par.capTin s.tinLen = true ∧ fits s.par.capIn s.inLen = true
  /-- `block_start <= pos <= n` in the encoder's loop (10_state.md R22; 42_block_encoder.md R147 e). -/
  cursor : ∀ src, s.seq = .enc src →
    s.blockStart ≤ s.pos ∧ s.pos ≤ (s.srcBuf src).length
  /-- `rp` never exceeds the stream length (10_state.md R24). -/
  read_pointer : ∀ k, s.seq = .dec k → s.rp ≤ s.inLen

/-- The inputs of an operation (10_state.md R34) are the same in two states. -/
abbrev SameInputs (s t : State) : Prop :=
  t.par = s.par ∧ t.op = s.op ∧ t.level = s.level ∧ t.posReg = s.posReg ∧ t.elen = s.elen ∧
    t.edist = s.edist ∧ t.mem.tin = s.mem.tin ∧ t.mem.inp = s.mem.inp

/-- No reset is the host's next move, so that a step is the core's or the host's own. -/
abbrev NoResetNext (s : State) : Prop := s.host.head? ≠ some .reset

/-- `i` is a reference block of this copy length and distance, in the numbers of 30_encoding.md R76
(the bit fields as numbers, `a << 8 | b` as `a * 256 + b`). -/
def RefWith (i : Instr) (length distance : Nat) : Bool :=
  match i with
  | .ref lf dhi dlo =>
    decide (length = lf.toNat + 2) && decide (distance = dhi.toNat * 256 + dlo.toNat + 1)
  | .refx dhi c dlo =>
    decide (length = c.toNat + 9) && decide (distance = dhi.toNat * 256 + dlo.toNat + 1)
  | .lit _ | .ser | .des | .wmatch | .emitl | .emitr | .comp | .decomp | .encraw | .decraw => false

/-- Two states agree on what the row of a host operation lists as read (10_state.md R35). -/
abbrev RowInputsAgree (i : Instr) (s t : State) : Prop :=
  match i with
  | .ser => t.mem.tin = s.mem.tin
  | .des => t.mem.inp = s.mem.inp
  | .wmatch => t.mem.inp = s.mem.inp ∧ t.posReg = s.posReg
  | .emitl => t.mem.inp = s.mem.inp
  | .emitr => t.elen = s.elen ∧ t.edist = s.edist
  | .comp => t.mem.inp = s.mem.inp ∧ t.level = s.level
  | .decomp => t.mem.inp = s.mem.inp
  | .encraw => t.mem.tin = s.mem.tin ∧ t.level = s.level
  | .decraw => t.mem.inp = s.mem.inp
  | .lit _ => False
  | .ref _ _ _ => False
  | .refx _ _ _ => False

/-- Two states differ at most in the inputs of operations. -/
abbrev DifferOnlyInInputs (s t : State) : Prop :=
  t = { s with
    op := t.op, level := t.level, posReg := t.posReg, elen := t.elen, edist := t.edist
    mem := { s.mem with tin := t.mem.tin, inp := t.mem.inp } }

/-- The same results and the same ending (10_state.md R29 to R33). -/
abbrev SameResults (s t : State) : Prop :=
  t.st = s.st ∧ t.err = s.err ∧ t.errpos = s.errpos ∧ t.mem.out = s.mem.out ∧
    t.mem.tout = s.mem.tout ∧ t.mFound = s.mFound ∧ t.mLen = s.mLen ∧ t.mDist = s.mDist

/-- The state with another granularity (00_scope.md R13). -/
def State.withGrain (g : Config.Grain) (s : State) : State :=
  { s with par := { s.par with grain := g } }

/-- A run is safe when it stops at no fault and no refusal: the host kept to the moves that exist. -/
def SafeFor (k : Nat) (s : State) : Prop := ∃ t, Host.Core.run Sys2Proof.core k s = .next t

/-- The host moves that exist in every state: all but the writes of one element or of a length alone,
which need the element to exist. -/
def HostMove.total : HostMove → Bool
  | .writeOp _ | .writeLevel _ | .writePos _ | .writeElen _ | .writeEdist _ => true
  | .writeTin _ | .writeIn _ | .start | .read | .reset => true
  | .writeTinAt _ _ | .writeTinLen _ | .writeInAt _ _ | .writeInLen _ => false

/-- The operation running in `s` ends within `k` steps, in `DONE` or `ERR` (70_reset_and_hazards.md
R266). -/
def EndsWithin (k : Nat) (s : State) : Prop :=
  ∃ j t, j ≤ k ∧ Host.Core.run Sys2Proof.core j s = .next t ∧ (t.st = .done ∨ t.st = .err)

end Sys2Proof.Machine
end

