-- ==== Sys2Proof/Certificates/Slice0/Obligations.lean ====
section
/-! DEFINITION. The statements for the provers. A state written `{ s with … }` in a conclusion is the
whole next state: every register, buffer element and flag it does not name is unchanged, so each
such statement carries its frame. `seq` is the model's own field (log entry 4): `seq := .op`, which
`raise` and `finish` also write, says only that the sequencer rests after an operation. `raise` also
leaves the working registers as they stand, of which the spec says nothing (log entry 6). -/

open Sys2Proof Sys2Proof.Machine

/-! ### Encodings (30_encoding.md) -/

/-- Words written out from the tables of 30_encoding.md: `LIT` R72, `REF` R73, `REFX` R74 (R145's
corner rows) and operation codes R86. -/
def Obligations.SpecWordsDecode : Prop :=
  decodeBlock [0x02, 0xAA, 0xBB, 0xCC] = .ok (.lit [0xAA, 0xBB, 0xCC], []) ∧
  decodeBlock [0x3F, 0xFF, 0x55] = .ok (.ref 1 31 0xFF, [0x55]) ∧
  decodeBlock [0xC1, 0x00] = .ok (.ref 6 1 0, []) ∧
  decodeBlock [0xE1, 0x5B, 0x2B] = .ok (.refx 1 0x5B 0x2B, []) ∧
  decodeOp 3 = .ok .wmatch ∧ decodeOp 9 = .ok .decraw

/-- R86: which operation each of the sixteen values of `OP` selects. The numbers are the spec's own
(R86: "the numbers are the spec's own", D3). -/
def Obligations.OperationCodes : Prop :=
  decodeOp 1 = .ok .ser ∧ decodeOp 2 = .ok .des ∧ decodeOp 3 = .ok .wmatch ∧
  decodeOp 4 = .ok .emitl ∧ decodeOp 5 = .ok .emitr ∧ decodeOp 6 = .ok .comp ∧
  decodeOp 7 = .ok .decomp ∧ decodeOp 8 = .ok .encraw ∧ decodeOp 9 = .ok .decraw ∧
  ∀ op : BitVec 4, op = 0 ∨ 10 ≤ op.toNat → decodeOp op = .error .badOp

/-- R77 (encoder side): decoding the encoding of any well-formed instruction, followed by anything,
gives the instruction back and leaves what followed. -/
def Obligations.DecodeOfEncode : Prop :=
  ∀ (i : Instr) (rest : List Byte), i.wf = true →
    decode i.space (encode i ++ rest) = .ok (i, rest)

/-- R77 (decoder side): whatever the stream decoder reads is a well-formed block whose encoding is
exactly the bytes consumed, so no block has a second encoding. -/
def Obligations.EncodeOfDecode : Prop :=
  ∀ (bs rest : List Byte) (i : Instr), decodeBlock bs = .ok (i, rest) →
    i.wf = true ∧ i.space = .stream ∧ encode i ++ rest = bs

/-- R78, and R79's "no illegal value": the header alone gives the size; with that many bytes present
the block decodes and consumes exactly them, with fewer it is truncated. -/
def Obligations.HeaderGivesSize : Prop :=
  ∀ (h : Byte) (t : List Byte),
    (h.toNat >>> 5 = 0 → blockSize h = (h.toNat &&& 0x1F) + 2) ∧
    (1 ≤ h.toNat >>> 5 → h.toNat >>> 5 ≤ 6 → blockSize h = 2) ∧
    (h.toNat >>> 5 = 7 → blockSize h = 3) ∧
    (blockSize h ≤ t.length + 1 →
      ∃ i, decodeBlock (h :: t) = .ok (i, t.drop (blockSize h - 1)) ∧ i.size = blockSize h) ∧
    (t.length + 1 < blockSize h → decodeBlock (h :: t) = .error .truncated)

/-- R75, R76, R77: for operands in range `emit_ref` gives the encoding of one well-formed block, and
that block carries the same length and distance. -/
def Obligations.EmitRefRoundTrip : Prop :=
  ∀ length distance : Nat, 3 ≤ length → length ≤ 264 → 1 ≤ distance → distance ≤ 8192 →
    ∃ i, assembleRef length distance = some i ∧ i.wf = true ∧
      emitRef length distance = .ok (encode i) ∧ RefWith i length distance = true

/-- R87, R88, R89: disassembling assembled blocks gives them back, to the end of the stream. -/
def Obligations.DisassembleOfAssembled : Prop :=
  ∀ is : List Instr, (∀ i ∈ is, i.wf = true ∧ i.space = .stream) →
    disassemble (is.flatMap encode) = (is, none)

/-- R142, R88: `flush` emits exactly the blocks of `LITS`, all well formed, `ceil(k / 32)` of them,
and `k + ceil(k / 32)` bytes; block `j` has the bytes from `32 * j`, 32 of them but in the last. That
a longer run is cut so is the spec's choice (D8). -/
def Obligations.FlushEmitsFullChunks : Prop :=
  ∀ run : List Byte, ∃ bytes, flush run = .ok bytes ∧ bytes = (lits run).flatMap encode ∧
    (lits run).length = (run.length + 31) / 32 ∧ (∀ i ∈ lits run, i.wf = true) ∧
    bytes.length = run.length + (run.length + 31) / 32 ∧
    ∀ j, j < (run.length + 31) / 32 →
      (lits run)[j]? = some (.lit (memRead run (32 * j) (min 32 (run.length - 32 * j))))

/-! ### Reset (10_state.md R37, 70_reset_and_hazards.md R260) -/

/-- R37: the table of reset values, for every choice of the open parameters. The values are the
spec's own ("The source defines no reset; these values are the spec's", D16). -/
def Obligations.ResetTable : Prop :=
  ∀ p : Config.Params, let s := State.resetWith p
    s.st = .idle ∧ s.err = .eNone ∧ s.errpos = 0 ∧ s.op = 0 ∧ s.level = 2 ∧ s.posReg = 0 ∧
    s.elen = 0 ∧ s.edist = 0 ∧ s.tinLen = 0 ∧ s.inLen = 0 ∧ s.midLen = 0 ∧ s.outLen = 0 ∧
    s.toutLen = 0 ∧ s.mFound = false ∧ s.mLen = 0 ∧ s.mDist = 0 ∧ s.pos = 0 ∧
    s.blockStart = 0 ∧ s.rp = 0 ∧ s.lReg = 0 ∧ s.dReg = 0

/-- R260: reset acts in any state, `BUSY` included, and leaves every register at its reset value.
That the parameters and the host's later moves stay is the model's choice (log entries 2 and 3). -/
def Obligations.ResetActsInAnyState : Prop :=
  ∀ (s : State) (rest : List HostMove), s.host = .reset :: rest →
    step s = .next { State.resetWith s.par with host := rest }

/-! ### START (10_state.md R34; 60_exceptions.md R232 to R234) -/

/-- R34: `START` clears every result, error and working register, keeps the inputs and makes the core
`BUSY`. Where the operation then begins (`seq`) is the model's (log entry 4). -/
def Obligations.StartBeginsOperation : Prop :=
  ∀ (s : State) (rest : List HostMove) (i : Instr), s.st ≠ .busy → s.host = .start :: rest →
    decodeOp s.op = .ok i → fits s.par.capTin s.tinLen = true → fits s.par.capIn s.inLen = true →
    step s = .next { s with
      mem := { s.mem with mid := [], out := [], tout := [] }
      st := .busy, err := .eNone, errpos := 0, mFound := false, mLen := 0, mDist := 0
      pos := 0, blockStart := 0, rp := 0, lReg := 0, dReg := 0
      seq := startSeq s.par.grain i, host := rest }

/-- R232 (inputs), R233, R234: `START` that ends at once, after R34's writes: with an `OP` that selects
no operation in `E_BADOP`, before any capacity is looked at; else with `TIN_LEN` or `IN_LEN` beyond its
capacity in `E_CAPACITY`. -/
def Obligations.StartEndsAtOnce : Prop :=
  ∀ (s : State) (rest : List HostMove) (e : Cause), s.st ≠ .busy → s.host = .start :: rest →
    ((s.op = 0 ∨ 10 ≤ s.op.toNat) ∧ e = .eBadOp ∨
      (1 ≤ s.op.toNat ∧ s.op.toNat ≤ 9) ∧ e = .eCapacity ∧
        (fits s.par.capTin s.tinLen = false ∨ fits s.par.capIn s.inLen = false)) →
    step s = .next { s with
      mem := { s.mem with mid := [], out := [], tout := [] }
      st := .err, err := e, errpos := 0, mFound := false, mLen := 0, mDist := 0
      pos := 0, blockStart := 0, rp := 0, lReg := 0, dReg := 0, seq := .op, host := rest }

/-- R34, R26: nothing an operation computes depends on what an earlier one left behind: two states
with the same inputs, and the same host, are the same state after `START`. -/
def Obligations.StartForgetsThePast : Prop :=
  ∀ s t : State, SameInputs s t → s.host = t.host → s.startOp = t.startOp

/-! ### A step runs the decoded instruction -/

/-- At the operation code of a running operation a step is `exec` of the operation `OP` selects; the
only thing around it is that a pending host read passes (log entry 3). -/
def Obligations.StepRunsOperation : Prop :=
  ∀ (s : State) (i : Instr), NoResetNext s → s.st = .busy → s.seq = .op →
    decodeOp s.op = .ok i → step s = exec i s.passRead

/-- In the block decoder's loop (R170, R171) a step is `exec` of the block decoded at `IN[rp]`. -/
def Obligations.StepRunsBlock : Prop :=
  ∀ (s : State) (k : Sink) (i : Instr) (rest : List Byte), NoResetNext s → s.st = .busy →
    s.seq = .dec k → s.rp < s.inLen → decodeBlock (s.mem.inp.drop s.rp) = .ok (i, rest) →
    step s = exec i s.passRead

/-- R177: a block that asks for more bytes than the stream has is `E_TRUNC` at its header index, and
nothing of it is delivered. That `rp`, `L` and `D` then stand as before the block is the model's reading
(log entry 6). -/
def Obligations.StepTruncatedBlock : Prop :=
  ∀ (s : State) (k : Sink), NoResetNext s → s.st = .busy → s.seq = .dec k → s.rp < s.inLen →
    (∀ h, s.mem.inp[s.rp]? = some h → s.inLen - s.rp < blockSize h) →
    step s = .next (s.passRead.raise .eTrunc s.rp)

/-- R178: with `rp` at the end of the stream the decoder has ended without error; `DECOMP` is `DONE`
with `OUT` as it stands, `DECRAW` goes on to its second stage (R201). -/
def Obligations.StepEndOfStream : Prop :=
  ∀ s : State, NoResetNext s → s.st = .busy → s.rp = s.inLen →
    (s.seq = .dec .out → step s = .next { s.passRead with st := .done, seq := .op }) ∧
    (s.seq = .dec .mid → step s = .next { s.passRead with seq := .des })

/-! ### The block instructions (43_block_decoder.md R172 to R177) -/

/-- R172: a header `0x00 .. 0x1F` is `LIT` with the `D + 1` data bytes that follow it. `LIT` appends
its data bytes verbatim to the decoder's output and moves `rp` past the block; with fewer bytes left
in the stream than the block has it is `E_TRUNC` at `rp`. The model's own part: that a failing block
leaves `rp`, `L` and `D` as they were (log entry 6), and what `exec` does with a literal that no header
carries or outside a decoder's loop (log entry 7). -/
def Obligations.LitRule : Prop :=
  ∀ (s : State) (data : List Byte),
    (∀ (h : Byte) (rest : List Byte), h.toNat ≤ 0x1F → data.length = h.toNat + 1 →
      decodeBlock (h :: (data ++ rest)) = .ok (.lit data, rest)) ∧
    (s.rp + (data.length + 1) ≤ s.inLen →
      fits (s.sinkCap s.sink) ((s.sinkBuf s.sink).length + data.length) = true →
      ∃ l d, exec (.lit data) s = .next
        { s.setSink s.sink (s.sinkBuf s.sink ++ data) with
          rp := s.rp + (data.length + 1), lReg := l, dReg := d }) ∧
    (s.inLen < s.rp + (data.length + 1) → exec (.lit data) s = .next (s.raise .eTrunc s.rp))

/-- R173 to R176: the operands of `REF` (headers `0x20 .. 0xDF`) and `REFX` (`0xE0 .. 0xFF`, the
continuation byte before the low distance byte), read from the stream; and what the two do. With all
their bytes present and a distance within the output they append `length` bytes, each equal to the
byte `distance` places before it in the output being built, and move `rp` past the block; with bytes
missing they are `E_TRUNC`, and with a greater distance `E_BACKREF`, at `rp`, nothing being
appended. The model's own part: that a failing block leaves `rp`, `L` and `D` as they were (log entry
6), and what `exec` does with a `REF` whose length field is 0 or 7 or outside a decoder's loop (log
entry 7). -/
def Obligations.RefRule : Prop :=
  (∀ (h b1 : Byte) (rest : List Byte), 0x20 ≤ h.toNat → h.toNat ≤ 0xDF →
    ∃ lf dhi dlo, decodeBlock (h :: b1 :: rest) = .ok (.ref lf dhi dlo, rest) ∧
      RefWith (.ref lf dhi dlo) (h.toNat / 32 + 2) (h.toNat % 32 * 256 + b1.toNat + 1) = true) ∧
  (∀ (h c b2 : Byte) (rest : List Byte), 0xE0 ≤ h.toNat →
    ∃ dhi cc dlo, decodeBlock (h :: c :: b2 :: rest) = .ok (.refx dhi cc dlo, rest) ∧
      RefWith (.refx dhi cc dlo) (7 + c.toNat + 2) (h.toNat % 32 * 256 + b2.toNat + 1) = true) ∧
  ∀ (s : State) (i : Instr) (length distance : Nat), RefWith i length distance = true →
    (s.rp + i.size ≤ s.inLen → distance ≤ (s.sinkBuf s.sink).length →
      fits (s.sinkCap s.sink) ((s.sinkBuf s.sink).length + length) = true →
      ∃ o l d,
        exec i s = .next { s.setSink s.sink o with rp := s.rp + i.size, lReg := l, dReg := d } ∧
        o.length = (s.sinkBuf s.sink).length + length ∧
        (∀ j, j < (s.sinkBuf s.sink).length → o[j]? = (s.sinkBuf s.sink)[j]?) ∧
        ∀ j, j < length →
          o[(s.sinkBuf s.sink).length + j]? = o[(s.sinkBuf s.sink).length - distance + j]?) ∧
    (s.inLen < s.rp + i.size → exec i s = .next (s.raise .eTrunc s.rp)) ∧
    (s.rp + i.size ≤ s.inLen → (s.sinkBuf s.sink).length < distance →
      exec i s = .next (s.raise .eBackref s.rp))

/-- R175: the copy keeps what was there, every new byte equals the one `distance` places before it,
and with `distance < length` the last `distance` bytes before the copy repeat periodically. -/
def Obligations.OverlappingCopyIsPeriodic : Prop :=
  ∀ (out : List Byte) (length distance : Nat), 1 ≤ distance → distance ≤ out.length →
    (copied out length distance).length = out.length + length ∧
    (∀ j, j < out.length → (copied out length distance)[j]? = out[j]?) ∧
    ∀ j, j < length →
      (copied out length distance)[out.length + j]? =
        (copied out length distance)[out.length - distance + j]? ∧
      (copied out length distance)[out.length + j]? = out[out.length - distance + j % distance]?

/-- R232 in the block decoder: a block whose bytes are present and in range but whose output would
pass the capacity ends in `E_CAPACITY`, position 0. The model's own part: that the failing block leaves
`rp`, `L` and `D` as they were (log entry 6), ill-formed blocks and states outside a decoder's loop
(log entry 7), and the check of a block's bytes as a whole, or of none (log entry 10). -/
def Obligations.BlockCapacity : Prop :=
  ∀ s : State,
    (∀ data : List Byte, s.rp + (data.length + 1) ≤ s.inLen →
      fits (s.sinkCap s.sink) ((s.sinkBuf s.sink).length + data.length) = false →
      exec (.lit data) s = .next (s.raise .eCapacity 0)) ∧
    ∀ (i : Instr) (length distance : Nat), RefWith i length distance = true →
      s.rp + i.size ≤ s.inLen → distance ≤ (s.sinkBuf s.sink).length →
      fits (s.sinkCap s.sink) ((s.sinkBuf s.sink).length + length) = false →
      exec i s = .next (s.raise .eCapacity 0)

/-- R24 as the model reads it (log entry 6): after a block `L` and `D` hold the length and the
distance for a reference, the header fields for a literal. -/
def Obligations.FieldsGrowToOperands : Prop :=
  ∀ (s t : State) (i : Instr), i.wf = true → exec i s = .next t → t.st = s.st → s.st = .busy →
    (∀ data, i = .lit data → t.lReg = 0 ∧ t.dReg.toNat = data.length - 1) ∧
    ∀ length distance, RefWith i length distance = true →
      t.lReg.toNat = length ∧ t.dReg.toNat = distance

/-! ### The serializer (40_timing_serializer.md) -/

/-- R100 to R102 and R232: `SER` appends the clamped pairs, low byte first, two bytes a timing; its
only error is the capacity of `OUT`. -/
def Obligations.SerAppendsClampedPairs : Prop :=
  ∀ s : State,
    (ser s.mem.tin).length = 2 * s.tinLen ∧
    (∀ (k t : Nat), s.mem.tin[k]? = some t →
      (ser s.mem.tin)[2 * k]? = some (BitVec.ofNat 8 (min t 65535 % 256)) ∧
      (ser s.mem.tin)[2 * k + 1]? = some (BitVec.ofNat 8 (min t 65535 / 256))) ∧
    (fits s.par.capOut (s.outLen + 2 * s.tinLen) = true →
      exec .ser s = .next { s with
        mem := { s.mem with out := s.mem.out ++ ser s.mem.tin }, st := .done, seq := .op }) ∧
    (fits s.par.capOut s.outLen = true → fits s.par.capOut (s.outLen + 2 * s.tinLen) = false →
      exec .ser s = .next (s.raise .eCapacity 0))

/-- R105, R106, R232: `DES` on an odd payload is `E_ODD`, position 0, whatever the capacity of `TOUT`;
on an even one it appends timing `k` = `b[2k] + 256 * b[2k+1]`, half as many as bytes, and the capacity
of `TOUT` is its only limit. -/
def Obligations.DesRule : Prop :=
  ∀ s : State,
    (s.inLen % 2 = 1 → exec .des s = .next (s.raise .eOdd 0)) ∧
    (s.inLen % 2 = 0 → ∃ ts : List Timing,
      ts.length = s.inLen / 2 ∧
      (∀ (k : Nat) (b0 b1 : Byte), s.mem.inp[2 * k]? = some b0 → s.mem.inp[2 * k + 1]? = some b1 →
        ∃ t, ts[k]? = some t ∧ t.toNat = b0.toNat + 256 * b1.toNat) ∧
      (fits s.par.capTout (s.toutLen + s.inLen / 2) = true →
        exec .des s = .next { s with
          mem := { s.mem with tout := s.mem.tout ++ ts }, st := .done, seq := .op }) ∧
      (fits s.par.capTout s.toutLen = true →
        fits s.par.capTout (s.toutLen + s.inLen / 2) = false →
        exec .des s = .next (s.raise .eCapacity 0)))

/-- R108: `des` after `ser` is the clamp, and `ser` after `des` is the identity on even payloads. -/
def Obligations.SerDesInverse : Prop :=
  (∀ signal : List Nat,
    des (ser signal) = .ok (signal.map fun t => BitVec.ofNat 16 (min t 65535))) ∧
  ∀ payload : List Byte, payload.length % 2 = 0 →
    ∃ ts, des payload = .ok ts ∧ ser (ts.map BitVec.toNat) = payload

/-! ### The matcher (41_window_matcher.md) -/

/-- R122: `match_length(d)` is the greatest agreeing run within both caps. -/
def Obligations.MatchLengthIsGreatest : Prop :=
  ∀ (data : List Byte) (pos d : Nat), pos ≤ data.length → 1 ≤ d → d ≤ pos →
    matchLength data pos d ≤ min 264 (data.length - pos) ∧
    (∀ j, j < matchLength data pos d → data[pos + j]? = data[pos - d + j]?) ∧
    (matchLength data pos d < min 264 (data.length - pos) →
      data[pos + matchLength data pos d]? ≠ data[pos - d + matchLength data pos d]?)

/-- R121, R124: no result exactly at the first position; otherwise the longest match among the
distances up to `min(pos, 8192)`, the nearest among equals. -/
def Obligations.MatchSelectsLongestNearest : Prop :=
  ∀ (data : List Byte) (pos : Nat), pos ≤ data.length →
    (pos = 0 → matchAt data pos = none) ∧
    (1 ≤ pos → ∃ len dist, matchAt data pos = some (len, dist) ∧ 1 ≤ dist ∧
      dist ≤ min pos 8192 ∧ len = matchLength data pos dist ∧
      ∀ d, 1 ≤ d → d ≤ min pos 8192 →
        matchLength data pos d ≤ len ∧ (matchLength data pos d = len → dist ≤ d))

/-- R130, R131: `MATCH` with a cursor inside the buffer reports the matcher's result in its three
registers, unwrapped, and ends; a cursor beyond the buffer is `E_INVARIANT`. -/
def Obligations.MatchRule : Prop :=
  ∀ s : State,
    (s.posReg ≤ s.inLen → ∃ (f : Bool) (l : BitVec 9) (d : BitVec 14),
      exec .wmatch s = .next
        { s with mFound := f, mLen := l, mDist := d, st := .done, seq := .op } ∧
      (matchAt s.mem.inp s.posReg = none → f = false ∧ l = 0 ∧ d = 0) ∧
      ∀ len dist, matchAt s.mem.inp s.posReg = some (len, dist) →
        f = true ∧ l.toNat = len ∧ d.toNat = dist) ∧
    (s.inLen < s.posReg → exec .wmatch s = .next (s.raise .eInvariant 0))

/-! ### The block encoder (42_block_encoder.md) -/

/-- R140, R141, R232: `EMITL` appends one literal block of the whole of `IN` when it has 1 to 32
bytes, and is `E_INVARIANT` otherwise. -/
def Obligations.EmitlRule : Prop :=
  ∀ s : State,
    (1 ≤ s.inLen → s.inLen ≤ 32 → fits s.par.capOut (s.outLen + (s.inLen + 1)) = true →
      exec .emitl s = .next { s with
        mem := { s.mem with
          out := s.mem.out ++ (BitVec.ofNat 8 (s.inLen - 1) :: s.mem.inp) }
        st := .done, seq := .op }) ∧
    (1 ≤ s.inLen → s.inLen ≤ 32 → fits s.par.capOut (s.outLen + (s.inLen + 1)) = false →
      exec .emitl s = .next (s.raise .eCapacity 0)) ∧
    (s.inLen = 0 ∨ 33 ≤ s.inLen → exec .emitl s = .next (s.raise .eInvariant 0))

/-- R143, R144, R232: `EMITR` appends two bytes for lengths 3 to 8 and three for 9 to 264, with the
fields of R75, and is `E_INVARIANT` for any operand out of range. -/
def Obligations.EmitrRule : Prop :=
  ∀ (s : State) (length distance : Nat), s.elen.toNat = length → s.edist.toNat = distance →
    (3 ≤ length → length ≤ 264 → 1 ≤ distance → distance ≤ 8192 →
      ∃ bytes : List Byte,
        (length ≤ 8 → bytes.map BitVec.toNat =
          [(length - 2) * 32 + (distance - 1) / 256, (distance - 1) % 256]) ∧
        (9 ≤ length → bytes.map BitVec.toNat =
          [7 * 32 + (distance - 1) / 256, length - 9, (distance - 1) % 256]) ∧
        (fits s.par.capOut (s.outLen + bytes.length) = true →
          exec .emitr s = .next { s with
            mem := { s.mem with out := s.mem.out ++ bytes }, st := .done, seq := .op }) ∧
        (fits s.par.capOut (s.outLen + bytes.length) = false →
          exec .emitr s = .next (s.raise .eCapacity 0))) ∧
    (length < 3 ∨ 264 < length ∨ distance < 1 ∨ 8192 < distance →
      exec .emitr s = .next (s.raise .eInvariant 0))

/-- R146, R13: every input has a compressed form, and `COMP` appends exactly the result function's
bytes, or ends in `E_CAPACITY` when they do not fit. The encoder's cursors end where they end. -/
def Obligations.CompAppendsResult : Prop :=
  ∀ s : State, fits s.par.capOut s.outLen = true →
    ∃ c, comp s.mem.inp s.level = .ok c ∧
      (fits s.par.capOut (s.outLen + c.length) = true →
        ∃ p b, exec .comp s = .next { s with
          mem := { s.mem with out := s.mem.out ++ c }
          st := .done, seq := .op, pos := p, blockStart := b }) ∧
      (fits s.par.capOut (s.outLen + c.length) = false →
        ∃ p b, exec .comp s = .next
          { s.raise .eCapacity 0 with pos := p, blockStart := b })

/-- R149: level 0 is `flush` of the whole input: 32-byte literal blocks and a remainder. -/
def Obligations.CompLevelZero : Prop :=
  ∀ data : List Byte, ∃ c, comp data 0 = .ok c ∧ c = (lits data).flatMap encode ∧
    c.length = data.length + (data.length + 31) / 32 ∧ decomp c = .ok data

/-- R151: all non-zero levels behave identically, in `COMP` and in `ENCRAW`. -/
def Obligations.NonzeroLevelsAlike : Prop :=
  ∀ (s t : State) (a b : BitVec 4), a ≠ 0 → b ≠ 0 →
    (exec .comp { s with level := a } = .next t →
      exec .comp { s with level := b } = .next { t with level := b }) ∧
    (exec .encraw { s with level := a } = .next t →
      exec .encraw { s with level := b } = .next { t with level := b })

/-- R147 to R150, R152: one step of the encoder's loop. Level 0 flushes the whole input and ends; at a
cursor inside the input, level non-zero, a match of 3 or more is taken after the pending run is
flushed, and anything else extends the run; at the end of the input the pending run is flushed and the
operation ends. A flush that does not fit is `E_CAPACITY`. That `pos` and `block_start` keep their
values at the end and on an error is the model's reading (log entry 6); the check of an append as a
whole, an empty one too, is log entry 10. -/
def Obligations.EncoderCursorStep : Prop :=
  ∀ (s : State) (src : Src), NoResetNext s → s.st = .busy → s.seq = .enc src →
    (∀ data, s.level = 0 ∧ data = s.srcBuf src ∨
        s.level ≠ 0 ∧ (s.srcBuf src).length ≤ s.pos ∧
          data = memRead (s.srcBuf src) s.blockStart (s.pos - s.blockStart) →
      ∃ bytes, flush data = .ok bytes ∧
        (fits s.par.capOut (s.outLen + bytes.length) = true →
          step s = .next { s.passRead with
            mem := { s.mem with out := s.mem.out ++ bytes }, st := .done, seq := .op }) ∧
        (fits s.par.capOut (s.outLen + bytes.length) = false →
          step s = .next (s.passRead.raise .eCapacity 0))) ∧
    (s.level ≠ 0 → s.pos < (s.srcBuf src).length →
      (∀ len dist, matchAt (s.srcBuf src) s.pos = some (len, dist) → 3 ≤ len →
        ∃ run block, flush (memRead (s.srcBuf src) s.blockStart (s.pos - s.blockStart)) = .ok run ∧
          emitRef len dist = .ok block ∧
          (fits s.par.capOut (s.outLen + (run ++ block).length) = true →
            step s = .next { s.passRead with
              mem := { s.mem with out := s.mem.out ++ (run ++ block) }
              pos := s.pos + len, blockStart := s.pos + len }) ∧
          (fits s.par.capOut (s.outLen + (run ++ block).length) = false →
            step s = .next (s.passRead.raise .eCapacity 0))) ∧
      ((∀ len dist, matchAt (s.srcBuf src) s.pos = some (len, dist) → len < 3) →
        step s = .next { s.passRead with pos := s.pos + 1 }))

/-- R153: the compressed form is at most `n + ceil(n / 32)` bytes long, at every level. -/
def Obligations.CompSizeBound : Prop :=
  ∀ (data c : List Byte) (level : BitVec 4), comp data level = .ok c →
    c.length ≤ data.length + (data.length + 31) / 32

/-- R209, R213: `n` equal bytes, `4 <= n <= 265`, compress to one literal and one reference of length
`n - 1` at distance 1. -/
def Obligations.RunCompressesToOneReference : Prop :=
  ∀ (v : Byte) (n : Nat) (level : BitVec 4), 4 ≤ n → n ≤ 265 → level ≠ 0 →
    comp (List.replicate n v) level = .ok ([0, v] ++ refBytes (n - 1) 1)

/-! ### The block decoder's operation and the chain -/

/-- R170, R183, R13, R234: `DECOMP` from an empty `OUT` delivers the result function's output, or
`E_CAPACITY` where a well-formed stream's output does not fit. On a malformed stream the first defect
in stream order wins: where the output of the blocks before the failing one fits, the result
function's cause at the index of the failing block's header; where it does not, `E_CAPACITY`. That `rp`
ends at that header is the model's reading (log entry 6). -/
def Obligations.DecompDeliversResult : Prop :=
  ∀ s : State, s.mem.out = [] →
    (∀ o, decomp s.mem.inp = .ok o → fits s.par.capOut o.length = true →
      ∃ l d, exec .decomp s = .next { s with
        mem := { s.mem with out := o }
        st := .done, seq := .op, rp := s.inLen, lReg := l, dReg := d }) ∧
    (∀ o, decomp s.mem.inp = .ok o → fits s.par.capOut o.length = false →
      ∃ r l d, exec .decomp s = .next
        { s.raise .eCapacity 0 with rp := r, lReg := l, dReg := d }) ∧
    (∀ e p, decomp s.mem.inp = .error (e, p) →
      ∃ before, decomp (s.mem.inp.take p) = .ok before ∧
        (fits s.par.capOut before.length = true →
          ∃ l d, exec .decomp s = .next { s.raise e p with rp := p, lReg := l, dReg := d }) ∧
        (fits s.par.capOut before.length = false →
          ∃ r l d, exec .decomp s = .next
            { s.raise .eCapacity 0 with rp := r, lReg := l, dReg := d }))

/-- R180, R231: the result function's errors are `E_TRUNC` and `E_BACKREF` only, at an index inside
the stream. -/
def Obligations.DecompErrorsAreFormatErrors : Prop :=
  ∀ (c : List Byte) (e : Cause) (p : Nat), decomp c = .error (e, p) →
    (e = .eTrunc ∨ e = .eBackref) ∧ e.kind = some .formatError ∧ p < c.length

/-- R181: a stream of `n` bytes decodes to at most `88 * n`. -/
def Obligations.DecompOutputBound : Prop :=
  ∀ c o : List Byte, decomp c = .ok o → o.length ≤ 88 * c.length

/-- R200, R13: `ENCRAW` from an empty `MID` leaves the payload in `MID` and appends the compressed
form to `OUT`, or ends in `E_CAPACITY` at the first stage whose output does not fit. -/
def Obligations.EncrawDeliversResult : Prop :=
  ∀ s : State, s.mem.mid = [] → fits s.par.capOut s.outLen = true →
    ∃ c, encraw s.mem.tin s.level = .ok c ∧
      (fits s.par.capMid (2 * s.tinLen) = true → fits s.par.capOut (s.outLen + c.length) = true →
        ∃ p b, exec .encraw s = .next { s with
          mem := { s.mem with mid := ser s.mem.tin, out := s.mem.out ++ c }
          st := .done, seq := .op, pos := p, blockStart := b }) ∧
      (fits s.par.capMid (2 * s.tinLen) = false ∨ fits s.par.capOut (s.outLen + c.length) = false →
        ∃ p b, exec .encraw s = .next
          { s.raise .eCapacity 0 with pos := p, blockStart := b })

/-- R201, R202, R13, R232, R234: `DECRAW` from an empty `MID` delivers the timings, or the first
failing stage's error. The decoder's stage fails as `DECOMP` does, with the capacity of `MID`; the
deserializer runs only on a completely decoded payload and fails with `E_ODD`, or with `E_CAPACITY`
where the timings do not fit `TOUT` (whose present length is within its capacity, log entry 10). That
`rp` ends at the failing block's header is the model's reading (log entry 6). -/
def Obligations.DecrawDeliversResult : Prop :=
  ∀ s : State, s.mem.mid = [] →
    (∀ payload ts, decomp s.mem.inp = .ok payload → des payload = .ok ts →
      fits s.par.capMid payload.length = true →
      decraw s.mem.inp = .ok ts ∧
      (fits s.par.capTout (s.toutLen + ts.length) = true →
        ∃ l d, exec .decraw s = .next { s with
          mem := { s.mem with mid := payload, tout := s.mem.tout ++ ts }
          st := .done, seq := .op, rp := s.inLen, lReg := l, dReg := d }) ∧
      (fits s.par.capTout s.toutLen = true →
        fits s.par.capTout (s.toutLen + ts.length) = false →
        ∃ r l d, exec .decraw s = .next
          { s.raise .eCapacity 0 with rp := r, lReg := l, dReg := d })) ∧
    (∀ payload, decomp s.mem.inp = .ok payload → payload.length % 2 = 1 →
      fits s.par.capMid payload.length = true →
      decraw s.mem.inp = .error (.eOdd, 0) ∧
      ∃ r l d, exec .decraw s = .next
        { s.raise .eOdd 0 with rp := r, lReg := l, dReg := d }) ∧
    (∀ payload, decomp s.mem.inp = .ok payload → fits s.par.capMid payload.length = false →
      ∃ r l d, exec .decraw s = .next
        { s.raise .eCapacity 0 with rp := r, lReg := l, dReg := d }) ∧
    (∀ e p, decomp s.mem.inp = .error (e, p) →
      decraw s.mem.inp = .error (e, p) ∧
      ∃ before, decomp (s.mem.inp.take p) = .ok before ∧
        (fits s.par.capMid before.length = true →
          ∃ l d, exec .decraw s = .next { s.raise e p with rp := p, lReg := l, dReg := d }) ∧
        (fits s.par.capMid before.length = false →
          ∃ r l d, exec .decraw s = .next
            { s.raise .eCapacity 0 with rp := r, lReg := l, dReg := d }))

/-- R203: the byte-level round trip, for every byte sequence and every level. -/
def Obligations.ByteRoundTrip : Prop :=
  ∀ (data : List Byte) (level : BitVec 4), ∃ c, comp data level = .ok c ∧ decomp c = .ok data

/-- R204, R205: the signal round trip through the whole chain is the clamp. -/
def Obligations.SignalRoundTrip : Prop :=
  ∀ (signal : List Nat) (level : BitVec 4), ∃ c, encraw signal level = .ok c ∧
    decraw c = .ok (signal.map fun t => BitVec.ofNat 16 (min t 65535))

/-- R35: an operation reads nothing that its row does not list: two states that differ only in
inputs outside the row end alike, with the same results. -/
def Obligations.OperationsReadOnlyTheirRow : Prop :=
  ∀ (i : Instr) (s s' t : State), DifferOnlyInInputs s s' → RowInputsAgree i s s' →
    exec i s = .next t → ∃ t', exec i s' = .next t' ∧ SameResults t t'

/-! ### Errors (60_exceptions.md) -/

/-- R235, R231: when a step takes a running operation to `ERR`, a cause is recorded, no result is
readable and the inputs are untouched; `ERRPOS` is 0 but for the two decoder causes, and for those it
is an index of `IN` that the host can read the failing block from. -/
def Obligations.ErrorEntryWithdrawsResults : Prop :=
  ∀ s t : State, NoResetNext s → s.st = .busy → step s = .next t → t.st = .err →
    t.err ≠ .eNone ∧ (t.err ≠ .eTrunc → t.err ≠ .eBackref → t.errpos = 0) ∧
    (t.err = .eTrunc ∨ t.err = .eBackref → t.errpos < t.inLen) ∧
    (∀ j, t.hostReadIn j = s.mem.inp[j]?) ∧
    t.outLen = 0 ∧ t.toutLen = 0 ∧ t.midLen = 0 ∧
    t.mFound = false ∧ t.mLen = 0 ∧ t.mDist = 0 ∧ SameInputs s t

/-- R235: the writes of error entry, all of them: the cause and its position, every result withdrawn,
`ST <- ERR`; whatever is not named, the inputs among it, is unchanged (for the working registers that
is log entry 6). -/
def Obligations.ErrorEntryWrites : Prop :=
  ∀ (e : Cause) (p : Nat) (s : State), s.raise e p = { s with
    mem := { s.mem with mid := [], out := [], tout := [] }
    err := e, errpos := p, mFound := false, mLen := 0, mDist := 0, st := .err, seq := .op }

/-- R27 to R33, R231, R261 to R263: what a host reads. While `BUSY` nothing but `ST` tells it anything.
Otherwise every register reads as it stands (the codes of `ST` and `ERR` are the spec's own), and so
does every element of `OUT`, `TOUT` and `IN` below its length. -/
def Obligations.HostReads : Prop :=
  ∀ s : State,
    (s.st = .idle → s.hostRead .st = some 0) ∧ (s.st = .done → s.hostRead .st = some 2) ∧
    (s.st = .err → s.hostRead .st = some 3) ∧
    (s.st = .busy → s.hostRead .st = some 1 ∧ (∀ r, r ≠ .st → s.hostRead r = none) ∧
      ∀ j, s.hostReadOut j = none ∧ s.hostReadTout j = none ∧ s.hostReadIn j = none) ∧
    (s.st ≠ .busy →
      s.hostRead .op = some s.op.toNat ∧ s.hostRead .level = some s.level.toNat ∧
      s.hostRead .pos = some s.posReg ∧ s.hostRead .elen = some s.elen.toNat ∧
      s.hostRead .edist = some s.edist.toNat ∧ s.hostRead .errpos = some s.errpos ∧
      s.hostRead .mFound = some (if s.mFound then 1 else 0) ∧
      s.hostRead .mLen = some s.mLen.toNat ∧ s.hostRead .mDist = some s.mDist.toNat ∧
      s.hostRead .tinLen = some s.mem.tin.length ∧ s.hostRead .inLen = some s.mem.inp.length ∧
      s.hostRead .outLen = some s.mem.out.length ∧ s.hostRead .toutLen = some s.mem.tout.length ∧
      (∀ j, s.hostReadOut j = s.mem.out[j]? ∧ s.hostReadTout j = s.mem.tout[j]? ∧
        s.hostReadIn j = s.mem.inp[j]?) ∧
      s.hostRead .err = some (match s.err with
        | .eNone => 0
        | .eTrunc => 1
        | .eOdd => 2
        | .eBackref => 3
        | .eInvariant => 4
        | .eCapacity => 5
        | .eBadOp => 6))

/-- R245: only `EMITL`, `EMITR` and `MATCH` raise `E_INVARIANT`; the blocks, the serializer and the
composite paths never do. -/
def Obligations.OnlyHostOperandsBreakInvariant : Prop :=
  ∀ (s t : State) (i : Instr), i ≠ .emitl → i ≠ .emitr → i ≠ .wmatch →
    s.err ≠ .eInvariant → exec i s = .next t → t.err ≠ .eInvariant

/-! ### The whole machine -/

/-- R29: the transitions of `ST`, and no others: `START`, the end of an operation, reset. -/
def Obligations.StatusTransitions : Prop :=
  ∀ s t : State, step s = .next t → t.st ≠ s.st →
    (s.st ≠ .busy ∧ (∃ rest, s.host = .start :: rest) ∧ (t.st = .busy ∨ t.st = .err)) ∨
    (s.st = .busy ∧ (t.st = .done ∨ t.st = .err)) ∨
    ((∃ rest, s.host = .reset :: rest) ∧ t.st = .idle)

/-- R52, R62, R66, R263: while `BUSY` nothing but a reset changes an input register, `TIN` or `IN`,
and a host move other than a read waits. -/
def Obligations.BusyKeepsInputs : Prop :=
  ∀ s t : State, NoResetNext s → s.st = .busy → step s = .next t →
    SameInputs s t ∧ t.host = s.passRead.host

/-- R27, R28, R31, R32, R33, R242: a core that is not `BUSY` does nothing without a host move; a host
read changes nothing; a host write of a register or of a whole input buffer changes that register or
buffer and nothing else, `TIN` where every element is one that `TIN_WIDTH` holds. -/
def Obligations.IdleCoreObeysHostOnly : Prop :=
  ∀ (s : State) (rest : List HostMove), s.st ≠ .busy →
    (s.host = [] → step s = .next s) ∧
    (∀ v, s.host = .writeOp v :: rest → step s = .next { s with op := v, host := rest }) ∧
    (∀ v, s.host = .writeLevel v :: rest → step s = .next { s with level := v, host := rest }) ∧
    (∀ v, s.host = .writePos v :: rest → step s = .next { s with posReg := v, host := rest }) ∧
    (∀ v, s.host = .writeElen v :: rest → step s = .next { s with elen := v, host := rest }) ∧
    (∀ v, s.host = .writeEdist v :: rest → step s = .next { s with edist := v, host := rest }) ∧
    (∀ xs, s.host = .writeIn xs :: rest →
      step s = .next { s with mem := { s.mem with inp := xs }, host := rest }) ∧
    (s.host = .read :: rest → step s = .next { s with host := rest }) ∧
    (∀ xs, s.host = .writeTin xs :: rest → (∀ t ∈ xs, timingFits s.par.tinWidth t = true) →
      step s = .next { s with mem := { s.mem with tin := xs }, host := rest })

/-- R51, R262, U4 (log entries 8 and 9): a host write to one element, or of a length alone, acts where
the element exists and is a fault where it does not; a timing that `TIN_WIDTH` cannot hold is
refused. -/
def Obligations.HostElementWrites : Prop :=
  ∀ (s : State) (rest : List HostMove), s.st ≠ .busy →
    (∀ j b, s.host = .writeInAt j b :: rest →
      (j < s.inLen →
        step s = .next { s with mem := { s.mem with inp := s.mem.inp.set j b }, host := rest }) ∧
      (s.inLen ≤ j → step s = .fault .elementBeyondLength)) ∧
    (∀ n, s.host = .writeInLen n :: rest →
      (n ≤ s.inLen →
        step s = .next { s with mem := { s.mem with inp := s.mem.inp.take n }, host := rest }) ∧
      (s.inLen < n → step s = .fault .elementBeyondLength)) ∧
    (∀ j t, s.host = .writeTinAt j t :: rest →
      (j < s.tinLen → timingFits s.par.tinWidth t = true →
        step s = .next { s with mem := { s.mem with tin := s.mem.tin.set j t }, host := rest }) ∧
      (j < s.tinLen → timingFits s.par.tinWidth t = false → step s = .refused .timingTooWide) ∧
      (s.tinLen ≤ j → step s = .fault .elementBeyondLength)) ∧
    (∀ n, s.host = .writeTinLen n :: rest →
      (n ≤ s.tinLen →
        step s = .next { s with mem := { s.mem with tin := s.mem.tin.take n }, host := rest }) ∧
      (s.tinLen < n → step s = .fault .elementBeyondLength)) ∧
    ∀ xs, s.host = .writeTin xs :: rest →
      (∃ t ∈ xs, timingFits s.par.tinWidth t = false) → step s = .refused .timingTooWide

/-- Every step of a running operation answers a next state: no instruction ends in a fault or a
refusal (log entry 11). -/
def Obligations.BusyStepNeverStops : Prop :=
  ∀ s : State, s.st = .busy → ∃ t, step s = .next t

/-- With an unbounded `TIN_WIDTH` a host that makes only moves that exist in every state never meets
a stop, however long the run (log entry 11). -/
def Obligations.TotalMovesNeverStop : Prop :=
  ∀ (s : State) (k : Nat), s.par.tinWidth = none → (∀ m ∈ s.host, m.total = true) → SafeFor k s

/-- R266: a running operation ends, in `DONE` or `ERR`, from every state, whatever the host still has
to do, as long as no reset cancels it. -/
def Obligations.OperationsEnd : Prop :=
  ∀ s : State, s.st = .busy → .reset ∉ s.host → ∃ k, EndsWithin k s

/-- R152, R183: the step bounds: one step per cursor position and one more in the encoder's loop, one
per two stream bytes and one more in the decoder's loop; in `DECRAW` the deserializer's stage is one
step after it (log entry 4). -/
def Obligations.StepBounds : Prop :=
  ∀ s : State, s.st = .busy → .reset ∉ s.host →
    (∀ src, s.seq = .enc src → EndsWithin ((s.srcBuf src).length - s.pos + 1) s) ∧
    (s.seq = .dec .out → EndsWithin ((s.inLen - s.rp) / 2 + 1) s) ∧
    (s.seq = .dec .mid → EndsWithin ((s.inLen - s.rp) / 2 + 2) s)

/-- The invariant holds after reset, for every choice of the parameters. -/
def Obligations.ResetEstablishesInv : Prop :=
  ∀ p : Config.Params, (State.resetWith p).Inv

/-- Every step, of the core or of the host, keeps the invariant (R22, R24, R29 to R33, R232). -/
def Obligations.StepKeepsInv : Prop :=
  ∀ s t : State, s.Inv → step s = .next t → t.Inv

/-- R13, D13: the two granularities reach the same state: what the whole operation gives in one step
after `START` (in none where `START` itself ends in an error), the step machines of R152 and R183 give in some number of steps. The host's next move is
one that waits for the operation's end (R263). -/
def Obligations.StepMachinesRefineWholeOperations : Prop :=
  ∀ s : State, s.st ≠ .busy → NoResetNext s → s.host.head? ≠ some .read →
    ∃ j k t, j ≤ 1 ∧ Host.Core.run Sys2Proof.core j (s.withGrain .whole).startOp = .next t ∧
      Host.Core.run Sys2Proof.core k (s.withGrain .stepwise).startOp =
        .next (t.withGrain .stepwise) ∧
      t.st ≠ .busy

/-- R200, R201, R232: the one-step stages of the composites. `ENCRAW`'s serializer appends the clamped
pairs to `MID` and the encoder's loop begins at the start of `MID`; `DECRAW`'s deserializer appends
the timings of `MID` to `TOUT` and ends; each is `E_CAPACITY` where its output does not fit, and an
odd `MID` is `E_ODD`. That a stage is one step is the model's (log entry 4), and what `pos` and the
other working registers hold after an error is log entry 6. -/
def Obligations.CompositeStageSteps : Prop :=
  ∀ s : State, NoResetNext s → s.st = .busy →
    (s.seq = .ser →
      (fits s.par.capMid (s.midLen + 2 * s.tinLen) = true →
        step s = .next { s.passRead with
          mem := { s.mem with mid := s.mem.mid ++ ser s.mem.tin }
          seq := .enc .mid, pos := 0, blockStart := 0 }) ∧
      (fits s.par.capMid s.midLen = true → fits s.par.capMid (s.midLen + 2 * s.tinLen) = false →
        step s = .next (s.passRead.raise .eCapacity 0))) ∧
    (s.seq = .des →
      (s.midLen % 2 = 1 → step s = .next (s.passRead.raise .eOdd 0)) ∧
      ∀ ts, des s.mem.mid = .ok ts →
        (fits s.par.capTout (s.toutLen + ts.length) = true →
          step s = .next { s.passRead with
            mem := { s.mem with tout := s.mem.tout ++ ts }, st := .done, seq := .op }) ∧
        (fits s.par.capTout s.toutLen = true →
          fits s.par.capTout (s.toutLen + ts.length) = false →
          step s = .next (s.passRead.raise .eCapacity 0)))
end

