-- ==== Sys2Proof/Laws/State.lean ====
section
/-! SUPPORT. The fields of the state after each named update: one lemma per field, so that no proof
unfolds a record update. -/

namespace Sys2Proof.Machine

/-! ### After `State.clearMatch` -/

@[simp] theorem State.clearMatch_par (s : State) : s.clearMatch.par = s.par := rfl
@[simp] theorem State.clearMatch_mem (s : State) : s.clearMatch.mem = s.mem := rfl
@[simp] theorem State.clearMatch_op (s : State) : s.clearMatch.op = s.op := rfl
@[simp] theorem State.clearMatch_level (s : State) : s.clearMatch.level = s.level := rfl
@[simp] theorem State.clearMatch_st (s : State) : s.clearMatch.st = s.st := rfl
@[simp] theorem State.clearMatch_err (s : State) : s.clearMatch.err = s.err := rfl
@[simp] theorem State.clearMatch_errpos (s : State) : s.clearMatch.errpos = s.errpos := rfl
@[simp] theorem State.clearMatch_posReg (s : State) : s.clearMatch.posReg = s.posReg := rfl
@[simp] theorem State.clearMatch_elen (s : State) : s.clearMatch.elen = s.elen := rfl
@[simp] theorem State.clearMatch_edist (s : State) : s.clearMatch.edist = s.edist := rfl
@[simp] theorem State.clearMatch_mFound (s : State) : s.clearMatch.mFound = false := rfl
@[simp] theorem State.clearMatch_mLen (s : State) : s.clearMatch.mLen = 0 := rfl
@[simp] theorem State.clearMatch_mDist (s : State) : s.clearMatch.mDist = 0 := rfl
@[simp] theorem State.clearMatch_pos (s : State) : s.clearMatch.pos = s.pos := rfl
@[simp] theorem State.clearMatch_blockStart (s : State) : s.clearMatch.blockStart = s.blockStart := rfl
@[simp] theorem State.clearMatch_rp (s : State) : s.clearMatch.rp = s.rp := rfl
@[simp] theorem State.clearMatch_lReg (s : State) : s.clearMatch.lReg = s.lReg := rfl
@[simp] theorem State.clearMatch_dReg (s : State) : s.clearMatch.dReg = s.dReg := rfl
@[simp] theorem State.clearMatch_seq (s : State) : s.clearMatch.seq = s.seq := rfl
@[simp] theorem State.clearMatch_host (s : State) : s.clearMatch.host = s.host := rfl

/-! ### After `State.clearBuffers` -/

@[simp] theorem State.clearBuffers_par (s : State) : s.clearBuffers.par = s.par := rfl
@[simp] theorem State.clearBuffers_mem (s : State) : s.clearBuffers.mem = { s.mem with mid := [], out := [], tout := [] } := rfl
@[simp] theorem State.clearBuffers_op (s : State) : s.clearBuffers.op = s.op := rfl
@[simp] theorem State.clearBuffers_level (s : State) : s.clearBuffers.level = s.level := rfl
@[simp] theorem State.clearBuffers_st (s : State) : s.clearBuffers.st = s.st := rfl
@[simp] theorem State.clearBuffers_err (s : State) : s.clearBuffers.err = s.err := rfl
@[simp] theorem State.clearBuffers_errpos (s : State) : s.clearBuffers.errpos = s.errpos := rfl
@[simp] theorem State.clearBuffers_posReg (s : State) : s.clearBuffers.posReg = s.posReg := rfl
@[simp] theorem State.clearBuffers_elen (s : State) : s.clearBuffers.elen = s.elen := rfl
@[simp] theorem State.clearBuffers_edist (s : State) : s.clearBuffers.edist = s.edist := rfl
@[simp] theorem State.clearBuffers_mFound (s : State) : s.clearBuffers.mFound = s.mFound := rfl
@[simp] theorem State.clearBuffers_mLen (s : State) : s.clearBuffers.mLen = s.mLen := rfl
@[simp] theorem State.clearBuffers_mDist (s : State) : s.clearBuffers.mDist = s.mDist := rfl
@[simp] theorem State.clearBuffers_pos (s : State) : s.clearBuffers.pos = s.pos := rfl
@[simp] theorem State.clearBuffers_blockStart (s : State) : s.clearBuffers.blockStart = s.blockStart := rfl
@[simp] theorem State.clearBuffers_rp (s : State) : s.clearBuffers.rp = s.rp := rfl
@[simp] theorem State.clearBuffers_lReg (s : State) : s.clearBuffers.lReg = s.lReg := rfl
@[simp] theorem State.clearBuffers_dReg (s : State) : s.clearBuffers.dReg = s.dReg := rfl
@[simp] theorem State.clearBuffers_seq (s : State) : s.clearBuffers.seq = s.seq := rfl
@[simp] theorem State.clearBuffers_host (s : State) : s.clearBuffers.host = s.host := rfl

/-! ### After `State.raise` -/

@[simp] theorem State.raise_par (e : Cause) (p : Nat) (s : State) : (s.raise e p).par = s.par := rfl
@[simp] theorem State.raise_mem (e : Cause) (p : Nat) (s : State) : (s.raise e p).mem = { s.mem with mid := [], out := [], tout := [] } := rfl
@[simp] theorem State.raise_op (e : Cause) (p : Nat) (s : State) : (s.raise e p).op = s.op := rfl
@[simp] theorem State.raise_level (e : Cause) (p : Nat) (s : State) : (s.raise e p).level = s.level := rfl
@[simp] theorem State.raise_st (e : Cause) (p : Nat) (s : State) : (s.raise e p).st = .err := rfl
@[simp] theorem State.raise_err (e : Cause) (p : Nat) (s : State) : (s.raise e p).err = e := rfl
@[simp] theorem State.raise_errpos (e : Cause) (p : Nat) (s : State) : (s.raise e p).errpos = p := rfl
@[simp] theorem State.raise_posReg (e : Cause) (p : Nat) (s : State) : (s.raise e p).posReg = s.posReg := rfl
@[simp] theorem State.raise_elen (e : Cause) (p : Nat) (s : State) : (s.raise e p).elen = s.elen := rfl
@[simp] theorem State.raise_edist (e : Cause) (p : Nat) (s : State) : (s.raise e p).edist = s.edist := rfl
@[simp] theorem State.raise_mFound (e : Cause) (p : Nat) (s : State) : (s.raise e p).mFound = false := rfl
@[simp] theorem State.raise_mLen (e : Cause) (p : Nat) (s : State) : (s.raise e p).mLen = 0 := rfl
@[simp] theorem State.raise_mDist (e : Cause) (p : Nat) (s : State) : (s.raise e p).mDist = 0 := rfl
@[simp] theorem State.raise_pos (e : Cause) (p : Nat) (s : State) : (s.raise e p).pos = s.pos := rfl
@[simp] theorem State.raise_blockStart (e : Cause) (p : Nat) (s : State) : (s.raise e p).blockStart = s.blockStart := rfl
@[simp] theorem State.raise_rp (e : Cause) (p : Nat) (s : State) : (s.raise e p).rp = s.rp := rfl
@[simp] theorem State.raise_lReg (e : Cause) (p : Nat) (s : State) : (s.raise e p).lReg = s.lReg := rfl
@[simp] theorem State.raise_dReg (e : Cause) (p : Nat) (s : State) : (s.raise e p).dReg = s.dReg := rfl
@[simp] theorem State.raise_seq (e : Cause) (p : Nat) (s : State) : (s.raise e p).seq = .op := rfl
@[simp] theorem State.raise_host (e : Cause) (p : Nat) (s : State) : (s.raise e p).host = s.host := rfl

/-! ### After `State.finish` -/

@[simp] theorem State.finish_par (s : State) : s.finish.par = s.par := rfl
@[simp] theorem State.finish_mem (s : State) : s.finish.mem = s.mem := rfl
@[simp] theorem State.finish_op (s : State) : s.finish.op = s.op := rfl
@[simp] theorem State.finish_level (s : State) : s.finish.level = s.level := rfl
@[simp] theorem State.finish_st (s : State) : s.finish.st = .done := rfl
@[simp] theorem State.finish_err (s : State) : s.finish.err = s.err := rfl
@[simp] theorem State.finish_errpos (s : State) : s.finish.errpos = s.errpos := rfl
@[simp] theorem State.finish_posReg (s : State) : s.finish.posReg = s.posReg := rfl
@[simp] theorem State.finish_elen (s : State) : s.finish.elen = s.elen := rfl
@[simp] theorem State.finish_edist (s : State) : s.finish.edist = s.edist := rfl
@[simp] theorem State.finish_mFound (s : State) : s.finish.mFound = s.mFound := rfl
@[simp] theorem State.finish_mLen (s : State) : s.finish.mLen = s.mLen := rfl
@[simp] theorem State.finish_mDist (s : State) : s.finish.mDist = s.mDist := rfl
@[simp] theorem State.finish_pos (s : State) : s.finish.pos = s.pos := rfl
@[simp] theorem State.finish_blockStart (s : State) : s.finish.blockStart = s.blockStart := rfl
@[simp] theorem State.finish_rp (s : State) : s.finish.rp = s.rp := rfl
@[simp] theorem State.finish_lReg (s : State) : s.finish.lReg = s.lReg := rfl
@[simp] theorem State.finish_dReg (s : State) : s.finish.dReg = s.dReg := rfl
@[simp] theorem State.finish_seq (s : State) : s.finish.seq = .op := rfl
@[simp] theorem State.finish_host (s : State) : s.finish.host = s.host := rfl

/-! ### After `State.startEffects` -/

@[simp] theorem State.startEffects_par (s : State) : s.startEffects.par = s.par := rfl
@[simp] theorem State.startEffects_mem (s : State) : s.startEffects.mem = { s.mem with mid := [], out := [], tout := [] } := rfl
@[simp] theorem State.startEffects_op (s : State) : s.startEffects.op = s.op := rfl
@[simp] theorem State.startEffects_level (s : State) : s.startEffects.level = s.level := rfl
@[simp] theorem State.startEffects_st (s : State) : s.startEffects.st = .busy := rfl
@[simp] theorem State.startEffects_err (s : State) : s.startEffects.err = .eNone := rfl
@[simp] theorem State.startEffects_errpos (s : State) : s.startEffects.errpos = 0 := rfl
@[simp] theorem State.startEffects_posReg (s : State) : s.startEffects.posReg = s.posReg := rfl
@[simp] theorem State.startEffects_elen (s : State) : s.startEffects.elen = s.elen := rfl
@[simp] theorem State.startEffects_edist (s : State) : s.startEffects.edist = s.edist := rfl
@[simp] theorem State.startEffects_mFound (s : State) : s.startEffects.mFound = false := rfl
@[simp] theorem State.startEffects_mLen (s : State) : s.startEffects.mLen = 0 := rfl
@[simp] theorem State.startEffects_mDist (s : State) : s.startEffects.mDist = 0 := rfl
@[simp] theorem State.startEffects_pos (s : State) : s.startEffects.pos = 0 := rfl
@[simp] theorem State.startEffects_blockStart (s : State) : s.startEffects.blockStart = 0 := rfl
@[simp] theorem State.startEffects_rp (s : State) : s.startEffects.rp = 0 := rfl
@[simp] theorem State.startEffects_lReg (s : State) : s.startEffects.lReg = 0 := rfl
@[simp] theorem State.startEffects_dReg (s : State) : s.startEffects.dReg = 0 := rfl
@[simp] theorem State.startEffects_seq (s : State) : s.startEffects.seq = .op := rfl
@[simp] theorem State.startEffects_host (s : State) : s.startEffects.host = s.host := rfl

/-! ### After `State.setSink` -/

@[simp] theorem State.setSink_par (k : Sink) (b : List Byte) (s : State) : (s.setSink k b).par = s.par := by
  cases k <;> rfl
@[simp] theorem State.setSink_op (k : Sink) (b : List Byte) (s : State) : (s.setSink k b).op = s.op := by
  cases k <;> rfl
@[simp] theorem State.setSink_level (k : Sink) (b : List Byte) (s : State) : (s.setSink k b).level = s.level := by
  cases k <;> rfl
@[simp] theorem State.setSink_st (k : Sink) (b : List Byte) (s : State) : (s.setSink k b).st = s.st := by
  cases k <;> rfl
@[simp] theorem State.setSink_err (k : Sink) (b : List Byte) (s : State) : (s.setSink k b).err = s.err := by
  cases k <;> rfl
@[simp] theorem State.setSink_errpos (k : Sink) (b : List Byte) (s : State) : (s.setSink k b).errpos = s.errpos := by
  cases k <;> rfl
@[simp] theorem State.setSink_posReg (k : Sink) (b : List Byte) (s : State) : (s.setSink k b).posReg = s.posReg := by
  cases k <;> rfl
@[simp] theorem State.setSink_elen (k : Sink) (b : List Byte) (s : State) : (s.setSink k b).elen = s.elen := by
  cases k <;> rfl
@[simp] theorem State.setSink_edist (k : Sink) (b : List Byte) (s : State) : (s.setSink k b).edist = s.edist := by
  cases k <;> rfl
@[simp] theorem State.setSink_mFound (k : Sink) (b : List Byte) (s : State) : (s.setSink k b).mFound = s.mFound := by
  cases k <;> rfl
@[simp] theorem State.setSink_mLen (k : Sink) (b : List Byte) (s : State) : (s.setSink k b).mLen = s.mLen := by
  cases k <;> rfl
@[simp] theorem State.setSink_mDist (k : Sink) (b : List Byte) (s : State) : (s.setSink k b).mDist = s.mDist := by
  cases k <;> rfl
@[simp] theorem State.setSink_pos (k : Sink) (b : List Byte) (s : State) : (s.setSink k b).pos = s.pos := by
  cases k <;> rfl
@[simp] theorem State.setSink_blockStart (k : Sink) (b : List Byte) (s : State) : (s.setSink k b).blockStart = s.blockStart := by
  cases k <;> rfl
@[simp] theorem State.setSink_rp (k : Sink) (b : List Byte) (s : State) : (s.setSink k b).rp = s.rp := by
  cases k <;> rfl
@[simp] theorem State.setSink_lReg (k : Sink) (b : List Byte) (s : State) : (s.setSink k b).lReg = s.lReg := by
  cases k <;> rfl
@[simp] theorem State.setSink_dReg (k : Sink) (b : List Byte) (s : State) : (s.setSink k b).dReg = s.dReg := by
  cases k <;> rfl
@[simp] theorem State.setSink_seq (k : Sink) (b : List Byte) (s : State) : (s.setSink k b).seq = s.seq := by
  cases k <;> rfl
@[simp] theorem State.setSink_host (k : Sink) (b : List Byte) (s : State) : (s.setSink k b).host = s.host := by
  cases k <;> rfl

@[simp] theorem State.setSink_tin (k : Sink) (b : List Byte) (s : State) :
    (s.setSink k b).mem.tin = s.mem.tin := by
  cases k <;> rfl
@[simp] theorem State.setSink_inp (k : Sink) (b : List Byte) (s : State) :
    (s.setSink k b).mem.inp = s.mem.inp := by
  cases k <;> rfl
@[simp] theorem State.setSink_tout (k : Sink) (b : List Byte) (s : State) :
    (s.setSink k b).mem.tout = s.mem.tout := by
  cases k <;> rfl
@[simp] theorem State.setSink_sinkBuf (k : Sink) (b : List Byte) (s : State) :
    (s.setSink k b).sinkBuf k = b := by
  cases k <;> rfl
@[simp] theorem State.setSink_sinkCap (k j : Sink) (b : List Byte) (s : State) :
    (s.setSink k b).sinkCap j = s.sinkCap j := by
  cases k <;> cases j <;> rfl
@[simp] theorem State.setSink_setSink (k : Sink) (a b : List Byte) (s : State) :
    (s.setSink k a).setSink k b = s.setSink k b := by
  cases k <;> rfl
@[simp] theorem State.setSink_self (k : Sink) (s : State) : s.setSink k (s.sinkBuf k) = s := by
  cases k <;> rfl
@[simp] theorem State.setSink_sink (k : Sink) (b : List Byte) (s : State) :
    (s.setSink k b).sink = s.sink := by
  cases k <;> rfl

/-! ### After `State.setMatch` -/

@[simp] theorem State.setMatch_par (r : Option (Nat × Nat)) (s : State) : (s.setMatch r).par = s.par := by
  rcases r with _ | ⟨_, _⟩ <;> rfl
@[simp] theorem State.setMatch_mem (r : Option (Nat × Nat)) (s : State) : (s.setMatch r).mem = s.mem := by
  rcases r with _ | ⟨_, _⟩ <;> rfl
@[simp] theorem State.setMatch_op (r : Option (Nat × Nat)) (s : State) : (s.setMatch r).op = s.op := by
  rcases r with _ | ⟨_, _⟩ <;> rfl
@[simp] theorem State.setMatch_level (r : Option (Nat × Nat)) (s : State) : (s.setMatch r).level = s.level := by
  rcases r with _ | ⟨_, _⟩ <;> rfl
@[simp] theorem State.setMatch_st (r : Option (Nat × Nat)) (s : State) : (s.setMatch r).st = s.st := by
  rcases r with _ | ⟨_, _⟩ <;> rfl
@[simp] theorem State.setMatch_err (r : Option (Nat × Nat)) (s : State) : (s.setMatch r).err = s.err := by
  rcases r with _ | ⟨_, _⟩ <;> rfl
@[simp] theorem State.setMatch_errpos (r : Option (Nat × Nat)) (s : State) : (s.setMatch r).errpos = s.errpos := by
  rcases r with _ | ⟨_, _⟩ <;> rfl
@[simp] theorem State.setMatch_posReg (r : Option (Nat × Nat)) (s : State) : (s.setMatch r).posReg = s.posReg := by
  rcases r with _ | ⟨_, _⟩ <;> rfl
@[simp] theorem State.setMatch_elen (r : Option (Nat × Nat)) (s : State) : (s.setMatch r).elen = s.elen := by
  rcases r with _ | ⟨_, _⟩ <;> rfl
@[simp] theorem State.setMatch_edist (r : Option (Nat × Nat)) (s : State) : (s.setMatch r).edist = s.edist := by
  rcases r with _ | ⟨_, _⟩ <;> rfl
@[simp] theorem State.setMatch_pos (r : Option (Nat × Nat)) (s : State) : (s.setMatch r).pos = s.pos := by
  rcases r with _ | ⟨_, _⟩ <;> rfl
@[simp] theorem State.setMatch_blockStart (r : Option (Nat × Nat)) (s : State) : (s.setMatch r).blockStart = s.blockStart := by
  rcases r with _ | ⟨_, _⟩ <;> rfl
@[simp] theorem State.setMatch_rp (r : Option (Nat × Nat)) (s : State) : (s.setMatch r).rp = s.rp := by
  rcases r with _ | ⟨_, _⟩ <;> rfl
@[simp] theorem State.setMatch_lReg (r : Option (Nat × Nat)) (s : State) : (s.setMatch r).lReg = s.lReg := by
  rcases r with _ | ⟨_, _⟩ <;> rfl
@[simp] theorem State.setMatch_dReg (r : Option (Nat × Nat)) (s : State) : (s.setMatch r).dReg = s.dReg := by
  rcases r with _ | ⟨_, _⟩ <;> rfl
@[simp] theorem State.setMatch_seq (r : Option (Nat × Nat)) (s : State) : (s.setMatch r).seq = s.seq := by
  rcases r with _ | ⟨_, _⟩ <;> rfl
@[simp] theorem State.setMatch_host (r : Option (Nat × Nat)) (s : State) : (s.setMatch r).host = s.host := by
  rcases r with _ | ⟨_, _⟩ <;> rfl

/-! ### After `State.passRead`: only the host's moves change -/

@[simp] theorem State.passRead_par (s : State) : s.passRead.par = s.par := by
  unfold State.passRead; split <;> rfl
@[simp] theorem State.passRead_mem (s : State) : s.passRead.mem = s.mem := by
  unfold State.passRead; split <;> rfl
@[simp] theorem State.passRead_op (s : State) : s.passRead.op = s.op := by
  unfold State.passRead; split <;> rfl
@[simp] theorem State.passRead_level (s : State) : s.passRead.level = s.level := by
  unfold State.passRead; split <;> rfl
@[simp] theorem State.passRead_st (s : State) : s.passRead.st = s.st := by
  unfold State.passRead; split <;> rfl
@[simp] theorem State.passRead_err (s : State) : s.passRead.err = s.err := by
  unfold State.passRead; split <;> rfl
@[simp] theorem State.passRead_errpos (s : State) : s.passRead.errpos = s.errpos := by
  unfold State.passRead; split <;> rfl
@[simp] theorem State.passRead_posReg (s : State) : s.passRead.posReg = s.posReg := by
  unfold State.passRead; split <;> rfl
@[simp] theorem State.passRead_elen (s : State) : s.passRead.elen = s.elen := by
  unfold State.passRead; split <;> rfl
@[simp] theorem State.passRead_edist (s : State) : s.passRead.edist = s.edist := by
  unfold State.passRead; split <;> rfl
@[simp] theorem State.passRead_mFound (s : State) : s.passRead.mFound = s.mFound := by
  unfold State.passRead; split <;> rfl
@[simp] theorem State.passRead_mLen (s : State) : s.passRead.mLen = s.mLen := by
  unfold State.passRead; split <;> rfl
@[simp] theorem State.passRead_mDist (s : State) : s.passRead.mDist = s.mDist := by
  unfold State.passRead; split <;> rfl
@[simp] theorem State.passRead_pos (s : State) : s.passRead.pos = s.pos := by
  unfold State.passRead; split <;> rfl
@[simp] theorem State.passRead_blockStart (s : State) : s.passRead.blockStart = s.blockStart := by
  unfold State.passRead; split <;> rfl
@[simp] theorem State.passRead_rp (s : State) : s.passRead.rp = s.rp := by
  unfold State.passRead; split <;> rfl
@[simp] theorem State.passRead_lReg (s : State) : s.passRead.lReg = s.lReg := by
  unfold State.passRead; split <;> rfl
@[simp] theorem State.passRead_dReg (s : State) : s.passRead.dReg = s.dReg := by
  unfold State.passRead; split <;> rfl
@[simp] theorem State.passRead_seq (s : State) : s.passRead.seq = s.seq := by
  unfold State.passRead; split <;> rfl

/-! ### Reset -/

@[simp] theorem State.resetEvent_eq (s : State) :
    s.resetEvent = { State.resetWith s.par with host := s.host } := rfl

@[simp] theorem State.withGrain_withGrain (g h : Config.Grain) (s : State) :
    (s.withGrain g).withGrain h = s.withGrain h := rfl

/-- A started operation's inputs are those it was given (10_state.md R34). -/
theorem startEffects_sameInputs (s : State) : SameInputs s s.startEffects := by
  simp [SameInputs]

/-- Error entry leaves the inputs (60_exceptions.md R235). -/
theorem raise_sameInputs (e : Cause) (p : Nat) (s : State) : SameInputs s (s.raise e p) := by
  simp [SameInputs]

end Sys2Proof.Machine
end

