-- ==== Sys2Proof/Laws/Ops.lean ====
section
/-! SUPPORT. What each shared operation over buffers can do, said once: appends, the serializer's and
the deserializer's loops, the copy, and that all of them keep the form of the buffers. -/

namespace Sys2Proof.Machine

/-! ### Capacities -/

theorem fits_mono {cap : Option Nat} {m n : Nat} (h : fits cap n = true) (hmn : m ≤ n) :
    fits cap m = true := by
  cases cap with
  | none => rfl
  | some c => simp [fits] at *; omega

@[simp] theorem fits_zero (cap : Option Nat) : fits cap 0 = true := by
  cases cap <;> simp [fits]

@[simp] theorem fits_none (n : Nat) : fits none n = true := rfl

/-! ### Appends -/

theorem push_ok_iff {k : Sink} {xs : List Byte} {s t : State} :
    s.push k xs = .ok t ↔
      fits (s.sinkCap k) ((s.sinkBuf k).length + xs.length) = true ∧
        t = s.setSink k (s.sinkBuf k ++ xs) := by
  unfold State.push
  split
  · rename_i h
    simp only [Except.ok.injEq, h, true_and]
    exact eq_comm
  · rename_i h
    simp [h]

theorem push_error_iff {k : Sink} {xs : List Byte} {s : State} {e : Cause} :
    s.push k xs = .error e ↔
      fits (s.sinkCap k) ((s.sinkBuf k).length + xs.length) = false ∧ e = .eCapacity := by
  unfold State.push
  split
  · rename_i h
    simp [h]
  · rename_i h
    simp only [Except.error.injEq, Bool.not_eq_true] at h ⊢
    simp only [h, true_and]
    exact eq_comm

theorem pushTimings_ok_iff {xs : List Timing} {s t : State} :
    s.pushTimings xs = .ok t ↔
      fits s.par.capTout (s.mem.tout.length + xs.length) = true ∧
        t = { s with mem := { s.mem with tout := s.mem.tout ++ xs } } := by
  unfold State.pushTimings
  split
  · rename_i h
    simp only [Except.ok.injEq, h, true_and]
    exact eq_comm
  · rename_i h
    simp [h]

theorem pushTimings_error_iff {xs : List Timing} {s : State} {e : Cause} :
    s.pushTimings xs = .error e ↔
      fits s.par.capTout (s.mem.tout.length + xs.length) = false ∧ e = .eCapacity := by
  unfold State.pushTimings
  split
  · rename_i h
    simp [h]
  · rename_i h
    simp only [Except.error.injEq, Bool.not_eq_true] at h ⊢
    simp only [h, true_and]
    exact eq_comm

/-! ### The form of the buffers -/

theorem memory_wf_iff {p : Config.Params} {m : Memory} :
    Memory.wf p m = true ↔
      fits p.capMid m.mid.length = true ∧ fits p.capOut m.out.length = true ∧
        fits p.capTout m.tout.length = true ∧ m.tin.all (timingFits p.tinWidth) = true := by
  simp [Memory.wf, and_assoc]

theorem push_keeps_wf {k : Sink} {xs : List Byte} {s t : State}
    (h : Memory.wf s.par s.mem = true) (ht : s.push k xs = .ok t) :
    Memory.wf t.par t.mem = true := by
  obtain ⟨hf, rfl⟩ := push_ok_iff.mp ht
  rw [memory_wf_iff] at h ⊢
  cases k <;> simp_all [State.setSink, State.sinkBuf, State.sinkCap]

theorem pushTimings_keeps_wf {xs : List Timing} {s t : State}
    (h : Memory.wf s.par s.mem = true) (ht : s.pushTimings xs = .ok t) :
    Memory.wf t.par t.mem = true := by
  obtain ⟨hf, rfl⟩ := pushTimings_ok_iff.mp ht
  rw [memory_wf_iff] at h ⊢
  simp_all

theorem clearBuffers_keeps_wf {s : State} (h : Memory.wf s.par s.mem = true) :
    Memory.wf s.clearBuffers.par s.clearBuffers.mem = true := by
  rw [memory_wf_iff] at h ⊢
  simp_all

theorem raise_keeps_wf {e : Cause} {p : Nat} {s : State} (h : Memory.wf s.par s.mem = true) :
    Memory.wf (s.raise e p).par (s.raise e p).mem = true := by
  have := clearBuffers_keeps_wf h
  exact this

theorem hostWriteTin_keeps_wf {xs : List Nat} {s t : State}
    (h : Memory.wf s.par s.mem = true) (ht : hostWriteTin xs s = .next t) :
    Memory.wf t.par t.mem = true := by
  unfold hostWriteTin at ht
  split at ht
  · cases ht
    rw [memory_wf_iff] at h ⊢
    simp_all
  · cases ht

theorem hostWriteTinAt_keeps_wf {j t : Nat} {s u : State}
    (h : Memory.wf s.par s.mem = true) (hu : hostWriteTinAt j t s = .next u) :
    Memory.wf u.par u.mem = true := by
  unfold hostWriteTinAt at hu
  split at hu
  · cases hu
  · split at hu
    · cases hu
      rw [memory_wf_iff] at h ⊢
      refine ⟨h.1, h.2.1, h.2.2.1, ?_⟩
      simp only [List.all_eq_true] at h ⊢
      intro x hx
      rcases List.mem_or_eq_of_mem_set hx with hx | rfl
      · exact h.2.2.2 x hx
      · assumption
    · cases hu

theorem hostWriteTinLen_keeps_wf {n : Nat} {s t : State}
    (h : Memory.wf s.par s.mem = true) (ht : hostWriteTinLen n s = .next t) :
    Memory.wf t.par t.mem = true := by
  unfold hostWriteTinLen at ht
  split at ht
  · cases ht
  · cases ht
    rw [memory_wf_iff] at h ⊢
    refine ⟨h.1, h.2.1, h.2.2.1, ?_⟩
    simp only [List.all_eq_true] at h ⊢
    exact fun x hx => h.2.2.2 x (List.mem_of_mem_take hx)

theorem reset_memory_wf (p : Config.Params) :
    Memory.wf (State.resetWith p).par (State.resetWith p).mem = true := by
  rw [memory_wf_iff]
  simp [State.resetWith]

/-- As (address, byte) pairs a buffer lists its addresses in rising order, each once. -/
theorem cells_addresses (b : List Byte) : (cells b).map Prod.fst = List.range b.length := by
  simp [cells, Function.comp_def, List.zipIdx_eq_zip_range', List.range_eq_range', List.map_snd_zip]

/-! ### The serializer's loops -/

/-- `SER`'s loop either appends the whole result or ends in `E_CAPACITY`. -/
theorem serLoop_cases (k : Sink) (ts : List Nat) (s : State) :
    serLoop k ts s = .ok (s.setSink k (s.sinkBuf k ++ ser ts)) ∨
      serLoop k ts s = .error .eCapacity := by
  induction ts generalizing s with
  | nil => left; simp [serLoop, ser]
  | cons t ts ih =>
    rw [serLoop]
    cases hp : s.push k (pairBytes (clamp t)) with
    | error e => right; rw [(push_error_iff.mp hp).2]
    | ok u =>
      obtain ⟨_, rfl⟩ := push_ok_iff.mp hp
      rcases ih (s.setSink k (s.sinkBuf k ++ pairBytes (clamp t))) with h | h
      · left; simpa [ser] using h
      · right; exact h

/-- `DES`'s loop either appends timings to `TOUT` and changes nothing else, or ends in `E_ODD` or
`E_CAPACITY`. -/
theorem desLoop_cases (bs : List Byte) (s : State) :
    (∃ ts, des bs = .ok ts ∧
      desLoop bs s = .ok { s with mem := { s.mem with tout := s.mem.tout ++ ts } }) ∨
    desLoop bs s = .error .eOdd ∨ desLoop bs s = .error .eCapacity := by
  induction bs, s using desLoop.induct with
  | case1 s => left; exact ⟨[], by simp [des], by simp [desLoop]⟩
  | case2 x s => right; left; simp [desLoop]
  | case3 b0 b1 rest s h => right; left; rw [desLoop, if_pos h]
  | case4 b0 b1 rest s h u hu ih =>
    obtain ⟨_, rfl⟩ := pushTimings_ok_iff.mp hu
    rw [desLoop, if_neg h, hu]
    rcases ih with ⟨ts, hts, hl⟩ | hl | hl
    · left
      exact ⟨pairTiming b0 b1 :: ts, by simp [des, hts], by simpa using hl⟩
    · right; left; exact hl
    · right; right; exact hl
  | case5 b0 b1 rest s h e he =>
    right; right
    rw [desLoop, if_neg h, he, (pushTimings_error_iff.mp he).2]

/-! ### The copy -/

/-- The byte-by-byte copy of the machine is the copy of the result function (R175, R183), or
`E_CAPACITY`. -/
theorem copyBack_cases (k : Sink) (dist n : Nat) (s : State) :
    copyBack k dist n s = .ok (s.setSink k (copied (s.sinkBuf k) n dist)) ∨
      copyBack k dist n s = .error .eCapacity := by
  induction n generalizing s with
  | zero => left; simp [copyBack, copied]
  | succ n ih =>
    rw [copyBack, copied]
    cases hp : s.push k (memRead (s.sinkBuf k) ((s.sinkBuf k).length - dist) 1) with
    | error e => right; rw [(push_error_iff.mp hp).2]
    | ok u =>
      obtain ⟨_, rfl⟩ := push_ok_iff.mp hp
      rcases ih (s.setSink k (s.sinkBuf k ++ memRead (s.sinkBuf k) ((s.sinkBuf k).length - dist) 1))
        with h | h
      · left; simpa using h
      · right; exact h

theorem memRead_length {α : Type} (b : List α) (a n : Nat) (h : a + n ≤ b.length) :
    (memRead b a n).length = n := by
  simp [memRead]; omega

/-! ### Checked emission -/

theorem emit_cases (r : Except Cause (List Byte)) (s t : State) (h : s.emit r = .ok t) :
    ∃ bytes, r = .ok bytes ∧ s.push .out bytes = .ok t := by
  cases r with
  | error e => simp [State.emit] at h
  | ok bytes => exact ⟨bytes, rfl, h⟩

theorem settle_cases (s : State) (p : Nat) (r : Except Cause State) :
    (∃ t, r = .ok t ∧ s.settle p r = t) ∨ (∃ e, r = .error e ∧ s.settle p r = s.raise e p) := by
  cases r with
  | ok t => exact .inl ⟨t, rfl, rfl⟩
  | error e => exact .inr ⟨e, rfl, rfl⟩

/-! ### The loop of a running operation -/

theorem runBusy_of_not_busy {s : State} (h : s.st ≠ .busy) (k : Nat) : runBusy k s = s := by
  cases k <;> simp [runBusy, h]

theorem runBusy_succ {s : State} (h : s.st = .busy) (k : Nat) :
    runBusy (k + 1) s = runBusy k (microStep s) := by
  simp [runBusy, h]

/-- What every step of a running operation keeps, the whole run keeps. -/
theorem runBusy_induction {P : State → Prop}
    (hstep : ∀ s, P s → s.st = .busy → P (microStep s)) (k : Nat) (s : State) (h : P s) :
    P (runBusy k s) := by
  induction k generalizing s with
  | zero => exact h
  | succ k ih =>
    unfold runBusy
    split
    · exact ih _ (hstep s h (by assumption))
    · exact h

end Sys2Proof.Machine
end

