-- ==== Sys2Proof/Laws/PerInstr.lean ====
section
/-! SUPPORT. Statements made per instruction. Family `EncodeSize`: the encoding of an instruction has
the instruction's size (30_encoding.md R72 to R74, R86). -/

namespace Sys2Proof.Laws.EncodeSize

/-- `encode i` is `i.size` bytes long. -/
def Statement (i : Instr) : Prop := (encode i).length = i.size

theorem lit (data : List Byte) : Statement (.lit data) := by
  simp [Statement, encode, Instr.size]
theorem ref (lf : BitVec 3) (dhi : BitVec 5) (dlo : Byte) : Statement (.ref lf dhi dlo) := rfl
theorem refx (dhi : BitVec 5) (c dlo : Byte) : Statement (.refx dhi c dlo) := rfl
theorem ser : Statement .ser := rfl
theorem des : Statement .des := rfl
theorem wmatch : Statement .wmatch := rfl
theorem emitl : Statement .emitl := rfl
theorem emitr : Statement .emitr := rfl
theorem comp : Statement .comp := rfl
theorem decomp : Statement .decomp := rfl
theorem encraw : Statement .encraw := rfl
theorem decraw : Statement .decraw := rfl

end Sys2Proof.Laws.EncodeSize
end

