-- ==== Sys2Proof/Laws/Step.lean ====
section
/-! SUPPORT. What one step can be, by the core's status and the host's next move. -/

namespace Sys2Proof.Machine

theorem step_reset {s : State} {rest : List HostMove} (h : s.host = .reset :: rest) :
    step s = .next ({ s with host := rest }).resetEvent := by
  simp [step, h]

theorem step_busy {s : State} (hr : NoResetNext s) (hb : s.st = .busy) :
    step s = busyStep s.passRead := by
  unfold step
  split
  · rename_i rest h
    simp [NoResetNext, h] at hr
  · simp [hb]

theorem step_rest {s : State} (hb : s.st ≠ .busy) (hh : s.host = []) : step s = .next s := by
  simp [step, hb, hh]

theorem step_move {s : State} {m : HostMove} {rest : List HostMove} (hb : s.st ≠ .busy)
    (hh : s.host = m :: rest) (hm : m ≠ .reset) :
    step s = hostMove m { s with host := rest } := by
  unfold step
  split
  · rename_i h
    rw [hh] at h
    cases h
    exact absurd rfl hm
  · simp [hb, hh]

/-- Every step is one of four: the reset event, a step of the running operation, a host move, or
rest. -/
theorem step_cases (s : State) :
    (∃ rest, s.host = .reset :: rest ∧ step s = .next ({ s with host := rest }).resetEvent) ∨
    (NoResetNext s ∧ s.st = .busy ∧ step s = busyStep s.passRead) ∨
    (∃ m rest, s.host = m :: rest ∧ m ≠ .reset ∧ s.st ≠ .busy ∧
      step s = hostMove m { s with host := rest }) ∨
    (s.host = [] ∧ s.st ≠ .busy ∧ step s = .next s) := by
  cases hh : s.host with
  | nil =>
    by_cases hb : s.st = .busy
    · exact .inr (.inl ⟨by simp [NoResetNext, hh], hb, step_busy (by simp [NoResetNext, hh]) hb⟩)
    · exact .inr (.inr (.inr ⟨rfl, hb, step_rest hb hh⟩))
  | cons m rest =>
    by_cases hm : m = .reset
    · subst hm
      exact .inl ⟨rest, rfl, step_reset hh⟩
    · have hr : NoResetNext s := by simp [NoResetNext, hh, hm]
      by_cases hb : s.st = .busy
      · exact .inr (.inl ⟨hr, hb, step_busy hr hb⟩)
      · exact .inr (.inr (.inl ⟨m, rest, rfl, hm, hb, step_move hb hh hm⟩))

/-- Inside a step machine a step of a running operation is `microStep`. -/
theorem busyStep_micro {s : State} (h : s.seq ≠ .op) : busyStep s = .next (microStep s) := by
  unfold busyStep
  cases hs : s.seq <;> simp_all

end Sys2Proof.Machine
end

