-- ==== Sys2Proof/Tests/Slice0.lean ====
section
/-! SUPPORT. Tests: the well-formedness checks, decoding of words written out from the encoding
tables, small vectors of 95_test_vectors.md (named in each comment), and for every obligation with
hypotheses a concrete state and operands that meet them. -/

namespace Sys2Proof.Tests

open Sys2Proof.Machine

/-! ### WellFormed refuses an ill-formed term for each check -/

theorem test_wf_lit_empty : Instr.wf (.lit []) = false := by decide
theorem test_wf_lit_33 : Instr.wf (.lit (List.replicate 33 0)) = false := by decide
theorem test_wf_lit_32 : Instr.wf (.lit (List.replicate 32 0)) = true := by decide
theorem test_wf_ref_field_0 : Instr.wf (.ref 0 0 0) = false := by decide
theorem test_wf_ref_field_7 : Instr.wf (.ref 7 0 0) = false := by decide
theorem test_wf_ref_fields_1_6 : Instr.wf (.ref 1 0 0) = true ∧ Instr.wf (.ref 6 0 0) = true := by
  decide

/-! ### Decoding, from the tables of 30_encoding.md -/

/-- `000 00010` then three bytes (R72). -/
theorem test_decode_lit :
    decodeBlock [0b00000010, 0xAA, 0xBB, 0xCC, 0x77] = .ok (.lit [0xAA, 0xBB, 0xCC], [0x77]) := by
  decide
/-- `010 00001`, `00000011`: length 4, distance 260 (R73). -/
theorem test_decode_ref :
    decodeBlock [0b01000001, 0b00000011] = .ok (.ref 0b010 0b00001 3, []) ∧
      RefWith (.ref 0b010 0b00001 3) 4 260 = true := by decide
/-- `111 00001`, continuation, low distance byte: length 100, distance 300 (R74, R145). -/
theorem test_decode_refx :
    decodeBlock [0b11100001, 0x5B, 0x2B, 0x00] = .ok (.refx 0b00001 0x5B 0x2B, [0x00]) ∧
      RefWith (.refx 0b00001 0x5B 0x2B) 100 300 = true := by decide
theorem test_decode_ser : decode .command [0b0001] = .ok (.ser, []) := by decide
theorem test_decode_des : decode .command [0b0010] = .ok (.des, []) := by decide
theorem test_decode_match : decode .command [0b0011] = .ok (.wmatch, []) := by decide
theorem test_decode_emitl : decode .command [0b0100] = .ok (.emitl, []) := by decide
theorem test_decode_emitr : decode .command [0b0101] = .ok (.emitr, []) := by decide
theorem test_decode_comp : decode .command [0b0110] = .ok (.comp, []) := by decide
theorem test_decode_decomp : decode .command [0b0111] = .ok (.decomp, []) := by decide
theorem test_decode_encraw : decode .command [0b1000] = .ok (.encraw, []) := by decide
theorem test_decode_decraw : decode .command [0b1001] = .ok (.decraw, []) := by decide
/-- R233: codes 0 and 10 select nothing. -/
theorem test_decode_bad_op :
    decodeOp 0 = .error .badOp ∧ decodeOp 10 = .error .badOp ∧ decodeOp 15 = .error .badOp := by
  decide
/-- R177: a `REFX` without its low distance byte. -/
theorem test_decode_truncated : decodeBlock [0xE0, 0x01] = .error .truncated := by decide
/-- R88's example, 33 bytes. -/
theorem test_lits_33 :
    (lits (List.replicate 33 0x41)).map Instr.size = [33, 2] := by decide
/-- The table's words: `LIT`, `REF`, `REFX` headers, and the operation codes. -/
theorem test_table_words :
    decodeTableWord 8 0x00 = some (.lit [0]) ∧ decodeTableWord 16 0x0320 = some (.ref 1 0 3) ∧
      decodeTableWord 24 0x2B5BE1 = some (.refx 1 0x5B 0x2B) ∧
      decodeTableWord 8 1 = some .ser ∧ decodeTableWord 8 9 = some .decraw := by decide

/-! ### Helpers for the vectors -/

/-- A running operation on `IN`, as `START` leaves it. -/
def onIn (bs : List Byte) : State :=
  { State.reset with mem := { State.reset.mem with inp := bs }, st := .busy }

/-- A running operation on `TIN`, as `START` leaves it. -/
def onTin (ts : List Nat) : State :=
  { State.reset with mem := { State.reset.mem with tin := ts }, st := .busy }

/-- A running block decoder on `IN`. -/
def decoding (bs : List Byte) : State := { onIn bs with op := 7, seq := .dec .out }

/-- `ST`, `ERR`, `ERRPOS` and `OUT` of a next state. -/
def outOf (o : Host.Outcome State Fault Refusal) : Option (Status × Cause × Nat × List Byte) :=
  match o with
  | .next t => some (t.st, t.err, t.errpos, t.mem.out)
  | .fault _ => none
  | .refused _ => none

/-- `ST`, `ERR`, `ERRPOS` and `TOUT` of a next state. -/
def toutOf (o : Host.Outcome State Fault Refusal) : Option (Status × Cause × Nat × List Timing) :=
  match o with
  | .next t => some (t.st, t.err, t.errpos, t.mem.tout)
  | .fault _ => none
  | .refused _ => none

/-- `ST` and the matcher's result registers of a next state. -/
def matchOf (o : Host.Outcome State Fault Refusal) : Option (Status × Bool × BitVec 9 × BitVec 14) :=
  match o with
  | .next t => some (t.st, t.mFound, t.mLen, t.mDist)
  | .fault _ => none
  | .refused _ => none

/-! ### Vectors of 95_test_vectors.md -/

/-- V-S5: clamp and byte order. -/
theorem test_ser_clamps :
    outOf (exec .ser (onTin [0, 65535, 65536, 1, 256])) =
      some (.done, .eNone, 0, [0, 0, 0xFF, 0xFF, 0xFF, 0xFF, 1, 0, 0, 1]) := by decide
/-- V-S1, first pair: 9000 is `28 23`. -/
theorem test_ser_pair :
    outOf (exec .ser (onTin [9000, 1690])) =
      some (.done, .eNone, 0, [0x28, 0x23, 0x9A, 0x06]) := by decide
/-- V-S9. -/
theorem test_des_pairs :
    toutOf (exec .des (onIn [0xFF, 0xFF, 0x00, 0x01])) =
      some (.done, .eNone, 0, [65535, 256]) := by decide
/-- V-S11: the complete first pair is not delivered. -/
theorem test_des_odd :
    toutOf (exec .des (onIn [0x28, 0x23, 0x94])) = some (.err, .eOdd, 0, []) := by decide
/-- V-M8: nearest wins on a tie. -/
theorem test_match_tie :
    matchOf (exec .wmatch
      { onIn [0xAA, 0xBB, 0xCC, 0, 0xAA, 0xBB, 0xCC, 0x11, 0xAA, 0xBB, 0xCC] with posReg := 8 }) =
      some (.done, true, 3, 4) := by decide
/-- V-M9: longest wins over nearest. -/
theorem test_match_longest :
    matchOf (exec .wmatch { onIn [1, 2, 3, 4, 1, 2, 9, 1, 2, 3] with posReg := 7 }) =
      some (.done, true, 3, 7) := by decide
/-- V-E14. -/
theorem test_emitl_one : outOf (exec .emitl (onIn [0x41])) =
    some (.done, .eNone, 0, [0x00, 0x41]) := by decide
/-- V-E17. -/
theorem test_emitl_33 : outOf (exec .emitl (onIn (List.replicate 33 0))) =
    some (.err, .eInvariant, 0, []) := by decide
/-- V-E8: the order header, continuation, low distance byte (90_conflicts.md C4). -/
theorem test_emitr_extended : outOf (exec .emitr { onIn [] with elen := 100, edist := 300 }) =
    some (.done, .eNone, 0, [0xE1, 0x5B, 0x2B]) := by decide
/-- V-E7. -/
theorem test_emitr_short : outOf (exec .emitr { onIn [] with elen := 8, edist := 257 }) =
    some (.done, .eNone, 0, [0xC1, 0x00]) := by decide
/-- V-C17 (P3). -/
theorem test_comp_periodic :
    outOf (exec .comp (onIn [0x61, 0x62, 0x63, 0x61, 0x62, 0x63, 0x61, 0x62, 0x63, 0x58])) =
      some (.done, .eNone, 0, [0x02, 0x61, 0x62, 0x63, 0x80, 0x02, 0x00, 0x58]) := by decide
/-- V-C3: a 2-byte match stays literal. -/
theorem test_comp_threshold : outOf (exec .comp (onIn [0x61, 0x61, 0x61])) =
    some (.done, .eNone, 0, [0x02, 0x61, 0x61, 0x61]) := by decide
/-- V-D4: overlap with period 2 and odd length. -/
theorem test_decomp_overlap : outOf (exec .decomp (onIn [0x01, 0x61, 0x62, 0x60, 0x01])) =
    some (.done, .eNone, 0, [0x61, 0x62, 0x61, 0x62, 0x61, 0x62, 0x61]) := by decide
/-- V-D9: the out-of-range back-reference and its position. -/
theorem test_decomp_backref : outOf (exec .decomp (onIn [0x01, 0x41, 0x42, 0x20, 0x02])) =
    some (.err, .eBackref, 3, []) := by decide
/-- V-R6. -/
theorem test_encraw_clamped : outOf (exec .encraw (onTin [0, 65535, 65536, 1, 256])) =
    some (.done, .eNone, 0, [2, 0, 0, 0xFF, 0x20, 0, 3, 1, 0, 0, 1]) := by decide
/-- V-R3. -/
theorem test_encraw_70000 : outOf (exec .encraw (onTin [70000])) =
    some (.done, .eNone, 0, [0x01, 0xFF, 0xFF]) := by decide
/-- V-R10. -/
theorem test_decraw_five : toutOf (exec .decraw (onIn [0x01, 0x30, 0x02, 0xC0, 0x01])) =
    some (.done, .eNone, 0, [560, 560, 560, 560, 560]) := by decide
/-- V-R9: the decoder's error wins over the odd length. -/
theorem test_decraw_decoder_error_wins : toutOf (exec .decraw (onIn [0x00, 0x41, 0x05])) =
    some (.err, .eTrunc, 2, []) := by decide
/-- P2, step 1. -/
theorem test_lit_step :
    outOf (step (decoding [0x03, 0x61, 0x62, 0x63, 0x64, 0x40, 0x03, 0x00, 0x65])) =
      some (.busy, .eNone, 0, [0x61, 0x62, 0x63, 0x64]) := by decide
/-- V-D13: the bytes present of a truncated literal are not delivered. -/
theorem test_lit_truncated : outOf (step (decoding [0x02, 0xAA, 0xBB])) =
    some (.err, .eTrunc, 0, []) := by decide
/-- V-D8, second block: the distance equals the output length. -/
theorem test_ref_step :
    outOf (exec (.ref 1 0 1) { decoding [0x01, 0x41, 0x42, 0x20, 0x01] with
      rp := 3, mem := { (onIn [0x01, 0x41, 0x42, 0x20, 0x01]).mem with out := [0x41, 0x42] } }) =
      some (.busy, .eNone, 0, [0x41, 0x42, 0x41, 0x42, 0x41]) := by decide
/-- V-D10: a reference as first block. -/
theorem test_ref_first : outOf (step (decoding [0x20, 0x00])) =
    some (.err, .eBackref, 0, []) := by decide
/-- P1, step 2. -/
theorem test_refx_step :
    outOf (exec (.refx 0 1 0) { decoding [0x00, 0x41, 0xE0, 0x01, 0x00] with
      rp := 2, mem := { (onIn [0x00, 0x41, 0xE0, 0x01, 0x00]).mem with out := [0x41] } }) =
      some (.busy, .eNone, 0, List.replicate 11 0x41) := by decide
/-- V-D16. -/
theorem test_refx_truncated : outOf (step { decoding [0x00, 0x41, 0xE0, 0x01] with rp := 2 }) =
    some (.err, .eTrunc, 2, []) := by decide

/-! ### The host's side -/

/-- V-H2: `START` with `OP = 0`. -/
theorem test_start_bad_op : outOf (step { State.reset with host := [.start] }) =
    some (.err, .eBadOp, 0, []) := by decide
/-- R232: an input longer than a finite capacity. -/
theorem test_start_capacity :
    outOf (step { onIn [1, 2] with
      par := { capIn := some 1 }, st := .done, op := 6, host := [.start] }) =
      some (.err, .eCapacity, 0, []) := by decide
/-- V-H7: the default level is greedy, from reset through the host's moves. -/
theorem test_host_encraw :
    outOf (Host.Core.run Sys2Proof.core 4
      { State.reset with host := [.writeTin [560, 560, 560, 560, 560], .writeOp 8, .start] }) =
      some (.done, .eNone, 0, [0x01, 0x30, 0x02, 0xC0, 0x01]) := by decide
/-- The words the host places run as the first instruction after reset. -/
theorem test_fetch_words :
    outOf (step (State.reset.withFetchWord 8 7)) = some (.done, .eNone, 0, []) ∧
      outOf (step (State.reset.withFetchWord 8 0)) = some (.busy, .eNone, 0, [0]) ∧
      outOf (step (State.reset.withFetchWord 24 0xE0)) = some (.err, .eBackref, 0, []) :=
  ⟨by decide, by decide, by decide⟩
/-- A read passes beside the core's step while `BUSY`; a write waits (R263). -/
theorem test_busy_host_waits :
    (match step { decoding [0x00, 0x41] with host := [.read, .writeOp 3] } with
      | .next t => t.host == [.writeOp 3] && t.op == 7
      | .fault _ => false
      | .refused _ => false) = true := by decide

/-! ### Witnesses: every obligation with hypotheses has a state and operands that meet them -/

/-- An idle core with given pending moves. -/
def idleWith (ms : List HostMove) : State := { State.reset with host := ms }

/-- A block decoder at a block's header with output already produced, under given capacities. -/
def atBlock (p : Config.Params) (bs out : List Byte) : State :=
  { decoding bs with par := p, mem := { (onIn bs).mem with out := out } }

theorem witness_DecodeOfEncode :
    Instr.wf (.lit (List.replicate 32 7)) = true ∧ Instr.wf (.ref 6 31 255) = true ∧
      Instr.wf (.refx 31 255 255) = true ∧ Instr.wf .decraw = true := by decide
theorem witness_EncodeOfDecode :
    decodeBlock [0x00, 0x41, 0x20] = .ok (.lit [0x41], [0x20]) ∧
      decodeBlock [0xDF, 0xFF] = .ok (.ref 6 31 0xFF, []) ∧
      decodeBlock [0xFF, 0xFF, 0xFF] = .ok (.refx 31 0xFF 0xFF, []) := by decide
theorem witness_HeaderGivesSize_fields :
    (0x1F : Byte).toNat >>> 5 = 0 ∧ 1 ≤ (0x20 : Byte).toNat >>> 5 ∧
      (0xDF : Byte).toNat >>> 5 ≤ 6 ∧ (0xE0 : Byte).toNat >>> 5 = 7 := by decide
theorem witness_HeaderGivesSize_lengths :
    blockSize 0x1F ≤ (List.replicate 32 (0 : Byte)).length + 1 ∧
      (List.replicate 31 (0 : Byte)).length + 1 < blockSize 0x1F ∧
      ([0, 0] : List Byte).length + 1 = blockSize 0xFF ∧
      ([0] : List Byte).length + 1 < blockSize 0xFF := by decide
theorem witness_EmitRefRoundTrip :
    3 ≤ 264 ∧ 264 ≤ 264 ∧ 1 ≤ 8192 ∧ 8192 ≤ 8192 ∧ 3 ≤ 3 ∧ 3 ≤ 264 ∧ 1 ≤ 1 ∧ 1 ≤ 8192 := by decide
theorem witness_DisassembleOfAssembled :
    ∀ i ∈ [Instr.lit [0x41], .refx 0 1 0, .ref 1 0 0], i.wf = true ∧ i.space = .stream := by decide
theorem witness_FlushEmitsFullChunks :
    1 < ((List.replicate 33 (0 : Byte)).length + 31) / 32 := by decide
theorem witness_ResetActsInAnyState :
    ({ onIn [1] with host := [.reset, .read] } : State).host = .reset :: [.read] ∧
      ({ onIn [1] with host := [.reset, .read] } : State).st = .busy := by decide
theorem witness_StartBeginsOperation :
    let s : State := { onIn [1] with par := { capIn := some 1 }, st := .done, op := 6, host := [.start] }
    s.st ≠ .busy ∧ s.host = .start :: [] ∧ decodeOp s.op = .ok .comp ∧
      fits s.par.capTin s.tinLen = true ∧ fits s.par.capIn s.inLen = true := by decide
theorem witness_StartEndsAtOnce_badOp :
    (idleWith [.start]).st ≠ .busy ∧ (idleWith [.start]).host = .start :: [] ∧
      (idleWith [.start]).op = 0 ∧
      10 ≤ ({ idleWith [.start] with op := 10 } : State).op.toNat := by decide
theorem witness_StartEndsAtOnce_capacity :
    let s : State := { onIn [1, 2] with par := { capIn := some 1 }, st := .done, op := 6, host := [.start] }
    let u : State := { onTin [1] with par := { capTin := some 0 }, st := .err, op := 1, host := [.start] }
    s.st ≠ .busy ∧ s.host = .start :: [] ∧ 1 ≤ s.op.toNat ∧ s.op.toNat ≤ 9 ∧
      fits s.par.capIn s.inLen = false ∧ u.st ≠ .busy ∧ u.host = .start :: [] ∧
      1 ≤ u.op.toNat ∧ u.op.toNat ≤ 9 ∧ fits u.par.capTin u.tinLen = false := by decide
theorem witness_StartForgetsThePast :
    SameInputs (onIn [1]) { onIn [1] with st := .err, err := .eTrunc, errpos := 3, mLen := 5 } ∧
      (onIn [1]).host = ({ onIn [1] with st := .err, err := .eTrunc } : State).host := by decide
theorem witness_StepRunsOperation :
    NoResetNext { onIn [1] with op := 6, host := [.read] } ∧ (onIn [1]).st = .busy ∧
      (onIn [1]).seq = .op ∧ decodeOp 6 = .ok .comp := by decide
theorem witness_StepRunsBlock :
    let s := { decoding [0x00, 0x41, 0x20, 0x00] with rp := 2 }
    NoResetNext s ∧ s.st = .busy ∧ s.seq = .dec .out ∧ s.rp < s.inLen ∧
      decodeBlock (s.mem.inp.drop s.rp) = .ok (.ref 1 0 0, []) := by decide
theorem witness_StepTruncatedBlock :
    let s := decoding [0x02, 0xAA, 0xBB]
    NoResetNext s ∧ s.st = .busy ∧ s.seq = .dec .out ∧ s.rp < s.inLen ∧
      ∀ h, s.mem.inp[s.rp]? = some h → s.inLen - s.rp < blockSize h := by
  refine ⟨by decide, by decide, by decide, by decide, ?_⟩
  intro h hh
  cases hh
  decide
theorem witness_StepEndOfStream :
    let s := { decoding [0x00, 0x41] with rp := 2 }
    let u := { decoding [] with seq := .dec .mid }
    NoResetNext s ∧ s.st = .busy ∧ s.rp = s.inLen ∧ s.seq = .dec .out ∧
      NoResetNext u ∧ u.st = .busy ∧ u.rp = u.inLen ∧ u.seq = .dec .mid := by decide
theorem witness_LitRule_RefRule_headers :
    (0x00 : Byte).toNat ≤ 0x1F ∧ ([0x41] : List Byte).length = (0x00 : Byte).toNat + 1 ∧
      (0x1F : Byte).toNat ≤ 0x1F ∧ (List.replicate 32 (0x41 : Byte)).length = (0x1F : Byte).toNat + 1 ∧
      0x20 ≤ (0x20 : Byte).toNat ∧ 0x20 ≤ (0xDF : Byte).toNat ∧ (0xDF : Byte).toNat ≤ 0xDF ∧
      0xE0 ≤ (0xE0 : Byte).toNat ∧ 0xE0 ≤ (0xFF : Byte).toNat := by decide
theorem witness_LitRule_appends :
    let s := atBlock { capOut := some 2 } [0x01, 0x41, 0x42] []
    s.rp + (([0x41, 0x42] : List Byte).length + 1) ≤ s.inLen ∧
      fits (s.sinkCap s.sink) ((s.sinkBuf s.sink).length + ([0x41, 0x42] : List Byte).length) = true := by
  decide
theorem witness_RefRule_copies :
    let s := atBlock { capOut := some 5 } [0x20, 0x01] [0x41, 0x42]
    let u := atBlock { } [0xE0, 0xFF, 0x00] [0x41]
    RefWith (.ref 1 0 1) 3 2 = true ∧ s.rp + Instr.size (.ref 1 0 1) ≤ s.inLen ∧
      2 ≤ (s.sinkBuf s.sink).length ∧
      fits (s.sinkCap s.sink) ((s.sinkBuf s.sink).length + 3) = true ∧
      RefWith (.refx 0 0xFF 0) 264 1 = true ∧ u.rp + Instr.size (.refx 0 0xFF 0) ≤ u.inLen ∧
      1 ≤ (u.sinkBuf u.sink).length ∧
      fits (u.sinkCap u.sink) ((u.sinkBuf u.sink).length + 264) = true := by decide
theorem witness_OverlappingCopyIsPeriodic :
    1 ≤ 2 ∧ 2 ≤ ([0x61, 0x62] : List Byte).length ∧ 1 < ([0x61, 0x62] : List Byte).length ∧
      4 < 5 := by decide
theorem witness_LitRule_RefRule_truncated :
    Instr.space (.lit [0xAA, 0xBB, 0xCC]) = .stream ∧
      (decoding [0x02, 0xAA, 0xBB]).inLen <
        (decoding [0x02, 0xAA, 0xBB]).rp + Instr.size (.lit [0xAA, 0xBB, 0xCC]) ∧
      Instr.space (.ref 1 0 0) = .stream ∧
      (decoding [0x20]).inLen < (decoding [0x20]).rp + Instr.size (.ref 1 0 0) ∧
      Instr.space (.refx 0 1 0) = .stream ∧
      (decoding [0xE0, 0x01]).inLen < (decoding [0xE0, 0x01]).rp + Instr.size (.refx 0 1 0) := by
  decide
theorem witness_RefRule_backref :
    let s := atBlock { } [0x20, 0x02] [0x41, 0x42]
    RefWith (.ref 1 0 2) 3 3 = true ∧ s.rp + Instr.size (.ref 1 0 2) ≤ s.inLen ∧
      (s.sinkBuf s.sink).length < 3 ∧
      RefWith (.refx 31 0xFF 0xFF) 264 8192 = true ∧
      (atBlock { } [0xFF, 0xFF, 0xFF] [0x41]).rp + Instr.size (.refx 31 0xFF 0xFF) ≤
        (atBlock { } [0xFF, 0xFF, 0xFF] [0x41]).inLen ∧
      ((atBlock { } [0xFF, 0xFF, 0xFF] [0x41]).sinkBuf .out).length < 8192 := by decide
theorem witness_BlockCapacity :
    let s := atBlock { capOut := some 0 } [0x00, 0x41] []
    let u := atBlock { capOut := some 3 } [0x20, 0x00] [0x41]
    s.rp + (([0x41] : List Byte).length + 1) ≤ s.inLen ∧
      fits (s.sinkCap s.sink) ((s.sinkBuf s.sink).length + ([0x41] : List Byte).length) = false ∧
      RefWith (.ref 1 0 0) 3 1 = true ∧ u.rp + Instr.size (.ref 1 0 0) ≤ u.inLen ∧
      1 ≤ (u.sinkBuf u.sink).length ∧
      fits (u.sinkCap u.sink) ((u.sinkBuf u.sink).length + 3) = false := by decide
theorem witness_FieldsGrowToOperands :
    Instr.wf (.ref 1 0 0) = true ∧ RefWith (.ref 1 0 0) 3 1 = true ∧
      Instr.wf (.lit [0x41]) = true ∧
      (∃ t, exec (.ref 1 0 0) (atBlock { } [0x20, 0x00] [0x41]) = .next t ∧ t.st = .busy) ∧
      (∃ t, exec (.lit [0x41]) (decoding [0x00, 0x41]) = .next t ∧ t.st = .busy) :=
  ⟨by decide, by decide, by decide, ⟨_, rfl, by decide⟩, ⟨_, rfl, by decide⟩⟩
theorem witness_SerAppendsClampedPairs :
    let s : State := { onTin [70000, 0] with par := { capOut := some 4 } }
    let u : State := { onTin [1] with par := { capOut := some 1 } }
    s.mem.tin[1]? = some 0 ∧ fits s.par.capOut (s.outLen + 2 * s.tinLen) = true ∧
      fits u.par.capOut u.outLen = true ∧ fits u.par.capOut (u.outLen + 2 * u.tinLen) = false := by
  decide
theorem witness_DesRule_even :
    let s : State := { onIn [1, 2] with par := { capTout := some 1 } }
    let u : State := { onIn [1, 2] with par := { capTout := some 0 } }
    s.inLen % 2 = 0 ∧ s.mem.inp[2 * 0]? = some 1 ∧ s.mem.inp[2 * 0 + 1]? = some 2 ∧
      fits s.par.capTout (s.toutLen + s.inLen / 2) = true ∧ u.inLen % 2 = 0 ∧
      fits u.par.capTout u.toutLen = true ∧
      fits u.par.capTout (u.toutLen + u.inLen / 2) = false := by decide
theorem witness_DesRule_odd : (onIn [0x28]).inLen % 2 = 1 := by decide
theorem witness_SerDesInverse : ([0xFF, 0xFF] : List Byte).length % 2 = 0 := by decide
theorem witness_MatchLengthIsGreatest :
    2 ≤ ([1, 2, 1] : List Byte).length ∧ 1 ≤ 2 ∧ 2 ≤ 2 ∧
      0 < matchLength [1, 2, 1] 2 2 ∧
      matchLength [1, 2, 1] 2 1 < min 264 (([1, 2, 1] : List Byte).length - 2) := by decide
theorem witness_MatchSelectsLongestNearest :
    0 ≤ ([] : List Byte).length ∧ 1 ≤ 1 ∧ 1 ≤ ([1] : List Byte).length ∧ 1 ≤ min 1 8192 := by decide
theorem witness_MatchRule_reports :
    let s : State := { onIn [1, 2, 1] with posReg := 3 }
    s.posReg ≤ s.inLen ∧ (onIn []).posReg ≤ (onIn []).inLen ∧
      matchAt (onIn []).mem.inp (onIn []).posReg = none ∧
      matchAt s.mem.inp s.posReg = some (0, 1) := by decide
theorem witness_MatchRule_cursor :
    ({ onIn [1, 2] with posReg := 3 } : State).inLen <
      ({ onIn [1, 2] with posReg := 3 } : State).posReg := by decide
theorem witness_EmitlRule :
    let s : State := { onIn [0x41] with par := { capOut := some 2 } }
    let u : State := { onIn (List.replicate 32 0) with par := { capOut := some 32 } }
    1 ≤ s.inLen ∧ s.inLen ≤ 32 ∧ fits s.par.capOut (s.outLen + (s.inLen + 1)) = true ∧
      1 ≤ u.inLen ∧ u.inLen ≤ 32 ∧ fits u.par.capOut (u.outLen + (u.inLen + 1)) = false ∧
      (onIn []).inLen = 0 ∧ 33 ≤ (onIn (List.replicate 33 0)).inLen := by decide
theorem witness_EmitrRule :
    ({ onIn [] with elen := 264, edist := 8192 } : State).elen.toNat = 264 ∧
      ({ onIn [] with elen := 264, edist := 8192 } : State).edist.toNat = 8192 ∧
      ({ onIn [] with elen := 8, edist := 1 } : State).elen.toNat = 8 ∧
      fits ({ capOut := some 3 } : Config.Params).capOut (0 + 3) = true ∧
      fits ({ capOut := some 1 } : Config.Params).capOut (0 + 2) = false ∧
      ({ onIn [] with elen := 2, edist := 1 } : State).elen.toNat < 3 ∧
      264 < ({ onIn [] with elen := 265, edist := 1 } : State).elen.toNat ∧
      ({ onIn [] with elen := 3, edist := 0 } : State).edist.toNat < 1 ∧
      8192 < ({ onIn [] with elen := 3, edist := 8193 } : State).edist.toNat := by decide
theorem witness_CompAppendsResult :
    let s : State := { onIn [0x61, 0x61, 0x61, 0x61] with par := { capOut := some 4 } }
    let u : State := { onIn [0x61, 0x61, 0x61, 0x61] with par := { capOut := some 3 } }
    fits s.par.capOut s.outLen = true ∧ comp s.mem.inp s.level = .ok [0x00, 0x61, 0x20, 0x00] ∧
      fits s.par.capOut (s.outLen + 4) = true ∧ fits u.par.capOut u.outLen = true ∧
      comp u.mem.inp u.level = .ok [0x00, 0x61, 0x20, 0x00] ∧
      fits u.par.capOut (u.outLen + 4) = false := by decide
theorem witness_NonzeroLevelsAlike :
    (1 : BitVec 4) ≠ 0 ∧ (15 : BitVec 4) ≠ 0 ∧
      (∃ t, exec .comp { onIn [1] with level := 1 } = .next t) ∧
      (∃ t, exec .encraw { onTin [1] with level := 1 } = .next t) :=
  ⟨by decide, by decide, ⟨_, rfl⟩, ⟨_, rfl⟩⟩
theorem witness_EncoderCursorStep :
    let s : State := { onIn [0x61, 0x61, 0x61, 0x61] with seq := .enc .inp, pos := 1 }
    let u : State := { onIn [0x61, 0x61, 0x61] with seq := .enc .inp, pos := 1 }
    NoResetNext s ∧ s.st = .busy ∧ s.seq = .enc .inp ∧ s.level ≠ 0 ∧
      s.pos < (s.srcBuf .inp).length ∧ matchAt (s.srcBuf .inp) s.pos = some (3, 1) ∧
      fits s.par.capOut (s.outLen + 4) = true ∧
      fits ({ capOut := some 3 } : Config.Params).capOut (s.outLen + 4) = false ∧
      NoResetNext u ∧ u.st = .busy ∧ u.seq = .enc .inp ∧ u.level ≠ 0 ∧
      u.pos < (u.srcBuf .inp).length ∧ matchAt (u.srcBuf .inp) u.pos = some (2, 1) := by decide
theorem witness_EncoderCursorStep_end :
    let s : State := { onIn [0x61, 0x62] with level := 0, seq := .enc .inp }
    let u : State := { onIn [0x61, 0x62] with seq := .enc .inp, pos := 2, blockStart := 1 }
    NoResetNext s ∧ s.st = .busy ∧ s.level = 0 ∧ flush (s.srcBuf .inp) = .ok [1, 0x61, 0x62] ∧
      NoResetNext u ∧ u.st = .busy ∧ u.level ≠ 0 ∧ (u.srcBuf .inp).length ≤ u.pos ∧
      flush (memRead (u.srcBuf .inp) u.blockStart (u.pos - u.blockStart)) = .ok [0, 0x62] ∧
      fits u.par.capOut (u.outLen + 2) = true ∧
      fits ({ capOut := some 1 } : Config.Params).capOut (u.outLen + 2) = false := by decide
theorem witness_CompSizeBound : comp [0x61] 2 = .ok [0x00, 0x61] := by decide
theorem witness_RunCompressesToOneReference :
    4 ≤ 4 ∧ 4 ≤ 265 ∧ 4 ≤ 265 ∧ 265 ≤ 265 ∧ (2 : BitVec 4) ≠ 0 := by decide
theorem witness_DecompDeliversResult :
    let s : State := { onIn [0x00, 0x41, 0x20, 0x00] with par := { capOut := some 4 } }
    let u : State := { onIn [0x00, 0x41, 0x20, 0x00] with par := { capOut := some 3 } }
    let v := onIn [0x00, 0x41, 0x20, 0x01]
    s.mem.out = [] ∧ decomp s.mem.inp = .ok [0x41, 0x41, 0x41, 0x41] ∧ fits s.par.capOut 4 = true ∧
      u.mem.out = [] ∧ decomp u.mem.inp = .ok [0x41, 0x41, 0x41, 0x41] ∧
      fits u.par.capOut 4 = false ∧
      v.mem.out = [] ∧ decomp v.mem.inp = .error (.eBackref, 2) ∧
      decomp (v.mem.inp.take 2) = .ok [0x41] ∧
      fits ({ capOut := some 1 } : Config.Params).capOut 1 = true ∧
      fits ({ capOut := some 0 } : Config.Params).capOut 1 = false := by decide
theorem witness_DecompErrorsAreFormatErrors :
    decomp [0x1F] = .error (.eTrunc, 0) ∧ decomp [0x20, 0x00] = .error (.eBackref, 0) := by decide
theorem witness_DecompOutputBound : decomp [0x00, 0x41] = .ok [0x41] := by decide
theorem witness_EncrawDeliversResult :
    let s : State := { onTin [70000] with par := { capMid := some 2, capOut := some 3 } }
    s.mem.mid = [] ∧ fits s.par.capOut s.outLen = true ∧
      encraw s.mem.tin s.level = .ok [0x01, 0xFF, 0xFF] ∧
      fits s.par.capMid (2 * s.tinLen) = true ∧ fits s.par.capOut (s.outLen + 3) = true ∧
      fits ({ capMid := some 1 } : Config.Params).capMid (2 * s.tinLen) = false ∧
      fits ({ capOut := some 2 } : Config.Params).capOut (s.outLen + 3) = false := by decide
theorem witness_DecrawDeliversResult :
    let s : State := { onIn [0x01, 0xFF, 0xFF] with par := { capMid := some 2, capTout := some 1 } }
    s.mem.mid = [] ∧ decomp s.mem.inp = .ok [0xFF, 0xFF] ∧ des [0xFF, 0xFF] = .ok [65535] ∧
      fits s.par.capMid 2 = true ∧ fits s.par.capTout (s.toutLen + 1) = true ∧
      decomp [0x00, 0x41] = .ok [0x41] ∧ ([0x41] : List Byte).length % 2 = 1 ∧
      fits s.par.capMid 1 = true ∧
      fits ({ capTout := some 0 } : Config.Params).capTout s.toutLen = true ∧
      fits ({ capTout := some 0 } : Config.Params).capTout (s.toutLen + 1) = false ∧
      fits ({ capMid := some 1 } : Config.Params).capMid 2 = false ∧
      decomp [0x00, 0x41, 0x05] = .error (.eTrunc, 2) ∧ decomp [0x00, 0x41] = .ok [0x41] ∧
      fits ({ capMid := some 0 } : Config.Params).capMid 1 = false := by decide
theorem witness_OperationsReadOnlyTheirRow :
    DifferOnlyInInputs (onIn [1]) { onIn [1] with level := 5, elen := 3 } ∧
      RowInputsAgree .decomp (onIn [1]) { onIn [1] with level := 5, elen := 3 } ∧
      ∃ t, exec .decomp (onIn [1]) = .next t :=
  ⟨by decide, rfl, ⟨_, rfl⟩⟩
theorem witness_ErrorEntryWithdrawsResults :
    NoResetNext (decoding [0x20]) ∧ (decoding [0x20]).st = .busy ∧
      ∃ t, step (decoding [0x20]) = .next t ∧ t.st = .err :=
  ⟨by decide, by decide, ⟨_, rfl, by decide⟩⟩
theorem witness_OnlyHostOperandsBreakInvariant :
    (onIn [1]).err ≠ .eInvariant ∧ (∃ t, exec .comp (onIn [1]) = .next t) ∧
      (∃ t, exec .encraw (onTin [1]) = .next t) ∧ (∃ t, exec .decomp (onIn [1]) = .next t) ∧
      ∃ t, exec .decraw (onIn [1]) = .next t :=
  ⟨by decide, ⟨_, rfl⟩, ⟨_, rfl⟩, ⟨_, rfl⟩, ⟨_, rfl⟩⟩
theorem witness_StatusTransitions :
    (∃ t, step { onIn [] with st := .done, op := 6, host := [.start] } = .next t ∧ t.st = .busy) ∧
      (∃ t, step (idleWith [.start]) = .next t ∧ t.st = .err) ∧
      (∃ t, step { onIn [1] with op := 6 } = .next t ∧ t.st = .done) ∧
      ∃ t, step { onIn [1] with host := [.reset] } = .next t ∧ t.st = .idle :=
  ⟨⟨_, rfl, by decide⟩, ⟨_, rfl, by decide⟩, ⟨_, rfl, by decide⟩, ⟨_, rfl, by decide⟩⟩
theorem witness_BusyKeepsInputs :
    NoResetNext { onIn [1] with op := 6, host := [.writeOp 3] } ∧ (onIn [1]).st = .busy ∧
      ∃ t, step { onIn [1] with op := 6, host := [.writeOp 3] } = .next t :=
  ⟨by decide, by decide, ⟨_, rfl⟩⟩
theorem witness_IdleCoreObeysHostOnly_rests : State.reset.st ≠ .busy ∧ State.reset.host = [] := by decide
theorem witness_IdleCoreObeysHostOnly_writes :
    (idleWith [.writeOp 15]).st ≠ .busy ∧ (idleWith [.writeOp 15]).host = .writeOp 15 :: [] ∧
      (idleWith [.writeLevel 0]).host = .writeLevel 0 :: [] ∧
      (idleWith [.writePos 9]).host = .writePos 9 :: [] ∧
      (idleWith [.writeElen 511]).host = .writeElen 511 :: [] ∧
      (idleWith [.writeEdist 1]).host = .writeEdist 1 :: [] ∧
      (idleWith [.writeIn [1]]).host = .writeIn [1] :: [] ∧
      (idleWith [.writeTin [70000]]).host = .writeTin [70000] :: [] ∧
      (idleWith [.read]).host = .read :: [] ∧
      (∀ t ∈ [70000], timingFits (idleWith []).par.tinWidth t = true) ∧
      (∀ t ∈ [70000, 131071], timingFits (some 17) t = true) := by decide
theorem witness_HostElementWrites :
    let s (m : HostMove) : State :=
      { onIn [1] with par := { tinWidth := some 17 }, mem := { (onTin [1]).mem with inp := [1] }
                      st := .done, host := [m] }
    (s .start).st ≠ .busy ∧ (s (.writeInAt 0 9)).host = .writeInAt 0 9 :: [] ∧
      0 < (s .start).inLen ∧ (s .start).inLen ≤ 1 ∧ 1 < 2 ∧
      (s (.writeInLen 1)).host = .writeInLen 1 :: [] ∧ 1 ≤ (s .start).inLen ∧ (s .start).inLen < 2 ∧
      (s (.writeTinAt 0 131071)).host = .writeTinAt 0 131071 :: [] ∧ 0 < (s .start).tinLen ∧
      timingFits (s .start).par.tinWidth 131071 = true ∧
      timingFits (s .start).par.tinWidth 131072 = false ∧ (s .start).tinLen ≤ 1 ∧
      (s (.writeTinLen 1)).host = .writeTinLen 1 :: [] ∧ 1 ≤ (s .start).tinLen ∧
      (s .start).tinLen < 2 ∧ (s (.writeTin [131072])).host = .writeTin [131072] :: [] ∧
      ∃ t ∈ [131072], timingFits (s .start).par.tinWidth t = false := by decide
theorem witness_HostReads :
    State.reset.st = .idle ∧ (onIn [1]).st = .busy ∧ ({ onIn [1] with st := .done } : State).st = .done ∧
      ((onIn [1]).raise .eTrunc 0).st = .err ∧ HostReg.op ≠ .st ∧
      ((onIn [1]).raise .eTrunc 0).st ≠ .busy := by decide
/-- R231: after `E_TRUNC` at index 2 the host reads the failing block's header in `IN`. -/
theorem test_host_reads_failing_block :
    let t := ({ onIn [0x00, 0x41, 0x05] with st := .err, err := .eTrunc, errpos := 2 } : State)
    t.hostRead .errpos = some 2 ∧ t.hostReadIn 2 = some 0x05 ∧ t.hostReadIn 3 = none := by decide
theorem witness_BusyStepNeverStops : (decoding [0x20]).st = .busy := by decide
theorem witness_TotalMovesNeverStop :
    (idleWith [.writeIn [1], .writeOp 6, .start, .read, .reset]).par.tinWidth = none ∧
      ∀ m ∈ (idleWith [.writeIn [1], .writeOp 6, .start, .read, .reset]).host, m.total = true := by
  decide
theorem witness_OperationsEnd :
    let s := { decoding [0x20] with host := [.read, .writeOp 3, .start] }
    s.st = .busy ∧ .reset ∉ s.host := by decide
theorem witness_StepBounds :
    let s : State := { onIn [1] with seq := .enc .inp, host := [.read, .start] }
    let u : State := { decoding [0x20] with seq := .dec .mid }
    s.st = .busy ∧ .reset ∉ s.host ∧ s.seq = .enc .inp ∧ (decoding [0x20]).st = .busy ∧
      .reset ∉ (decoding [0x20]).host ∧ (decoding [0x20]).seq = .dec .out ∧
      u.st = .busy ∧ .reset ∉ u.host ∧ u.seq = .dec .mid := by decide
theorem witness_StepKeepsInv : (State.resetWith { }).Inv ∧
    ∃ t, step (State.resetWith { }) = .next t :=
  ⟨{ memory_wf := by decide, rests := by decide, err_iff := by decide, errpos_zero := by decide
     err_empty := by decide, idle_empty := by decide, not_found := by decide, found := by decide
     busy_inputs := by decide, cursor := fun _ h => by cases h
     read_pointer := fun _ h => by cases h }, ⟨_, rfl⟩⟩
theorem witness_StepMachinesRefineWholeOperations :
    let s : State := { onIn [1] with st := .done, op := 6, host := [.writeOp 3] }
    s.st ≠ .busy ∧ NoResetNext s ∧ s.host.head? ≠ some .read := by decide
theorem witness_CompositeStageSteps :
    let s : State := { onTin [70000] with seq := .ser, par := { capMid := some 2 } }
    let u : State := { onIn [] with seq := .des, mem := { (onIn []).mem with mid := [0xFF, 0xFF] } }
    NoResetNext s ∧ s.st = .busy ∧ fits s.par.capMid (s.midLen + 2 * s.tinLen) = true ∧
      fits ({ capMid := some 1 } : Config.Params).capMid s.midLen = true ∧
      fits ({ capMid := some 1 } : Config.Params).capMid (s.midLen + 2 * s.tinLen) = false ∧
      NoResetNext u ∧ u.st = .busy ∧ des u.mem.mid = .ok [65535] ∧
      fits u.par.capTout (u.toutLen + 1) = true ∧
      fits ({ capTout := some 0 } : Config.Params).capTout u.toutLen = true ∧
      fits ({ capTout := some 0 } : Config.Params).capTout (u.toutLen + 1) = false ∧
      ({ u with mem := { u.mem with mid := [1] } } : State).midLen % 2 = 1 := by decide

end Sys2Proof.Tests
end

/-! PROOF. The header byte and the stream decoder (30_encoding.md R71 to R78): what the two header
fields are as numbers, what the decoder answers for each kind of header, and from these that the
header alone gives the size of a block. -/

namespace Sys2Proof

variable {h : Byte}

/-! ### The header fields as numbers (R71) -/

theorem headerL_toNat (h : Byte) : (headerL h).toNat = h.toNat >>> 5 := by
  have hlt := h.isLt
  simp only [headerL, BitVec.extractLsb'_toNat]
  omega

theorem headerD_toNat (h : Byte) : (headerD h).toNat = h.toNat &&& 0x1F := by
  have hmask : h.toNat &&& 0x1F = h.toNat % 2 ^ 5 := Nat.and_two_pow_sub_one_eq_mod h.toNat 5
  rw [hmask]
  simp [headerD]

theorem headerL_eq_zero_iff : headerL h = 0 ↔ h.toNat >>> 5 = 0 := by
  rw [← headerL_toNat, BitVec.toNat_eq]; rfl

theorem headerL_eq_seven_iff : headerL h = 7 ↔ h.toNat >>> 5 = 7 := by
  rw [← headerL_toNat, BitVec.toNat_eq]; rfl

/-! ### The size of a block, by the kind of its header (R78) -/

theorem blockSize_lit (h0 : headerL h = 0) : blockSize h = (headerD h).toNat + 2 := if_pos h0

theorem blockSize_refx (h7 : headerL h = 7) : blockSize h = 3 := by
  simp [blockSize, h7]

theorem blockSize_ref (h0 : headerL h ≠ 0) (h7 : headerL h ≠ 7) : blockSize h = 2 :=
  (if_neg h0).trans (if_neg h7)

/-! ### What the decoder answers, by the kind of the header (R72 to R74, R177) -/

theorem decodeBlock_lit (h0 : headerL h = 0) (t : List Byte) :
    decodeBlock (h :: t) =
      if t.length < (headerD h).toNat + 1 then .error .truncated
      else .ok (.lit (t.take ((headerD h).toNat + 1)), t.drop ((headerD h).toNat + 1)) :=
  if_pos h0

theorem decodeBlock_ref (h0 : headerL h ≠ 0) (h7 : headerL h ≠ 7) (b : Byte) (rest : List Byte) :
    decodeBlock (h :: b :: rest) = .ok (.ref (headerL h) (headerD h) b, rest) :=
  (if_neg h0).trans (if_neg h7)

theorem decodeBlock_refx (h7 : headerL h = 7) (c b : Byte) (rest : List Byte) :
    decodeBlock (h :: c :: b :: rest) = .ok (.refx (headerD h) c b, rest) := by
  simp [decodeBlock, h7]

/-- R79: with as many bytes present as the header asks for, no value is illegal. -/
theorem decodeBlock_of_blockSize_le {t : List Byte} (hle : blockSize h ≤ t.length + 1) :
    ∃ i, decodeBlock (h :: t) = .ok (i, t.drop (blockSize h - 1)) ∧ i.size = blockSize h := by
  by_cases h0 : headerL h = 0
  · rw [blockSize_lit h0] at hle ⊢
    have hfits : ¬ t.length < (headerD h).toNat + 1 := by omega
    refine ⟨_, (decodeBlock_lit h0 t).trans (if_neg hfits), ?_⟩
    simp only [Instr.size, List.length_take]
    omega
  · by_cases h7 : headerL h = 7
    · rw [blockSize_refx h7] at hle ⊢
      match t with
      | c :: b :: rest => exact ⟨_, decodeBlock_refx h7 c b rest, rfl⟩
      | [_] | [] => simp at hle
    · rw [blockSize_ref h0 h7] at hle ⊢
      match t with
      | b :: rest => exact ⟨_, decodeBlock_ref h0 h7 b rest, rfl⟩
      | [] => simp at hle

/-- R177: with fewer bytes than the header asks for, the block is truncated. -/
theorem decodeBlock_of_lt_blockSize {t : List Byte} (hlt : t.length + 1 < blockSize h) :
    decodeBlock (h :: t) = .error .truncated := by
  by_cases h0 : headerL h = 0
  · rw [blockSize_lit h0] at hlt
    exact (decodeBlock_lit h0 t).trans (if_pos (by omega))
  · by_cases h7 : headerL h = 7
    · rw [blockSize_refx h7] at hlt
      match t with
      | [] | [_] => simp [decodeBlock, h7]
      | _ :: _ :: _ => simp only [List.length_cons] at hlt; omega
    · rw [blockSize_ref h0 h7] at hlt
      match t with
      | [] => exact (if_neg h0).trans (if_neg h7)
      | _ :: _ => simp at hlt

/-- Settles O5: the three sizes from the header fields as numbers, the two outcomes of the decoder by
the kind of the header. -/
theorem headerGivesSize : Obligations.HeaderGivesSize := by
  unfold Obligations.HeaderGivesSize
  intro h t
  refine ⟨fun h0 => ?_, fun h1 h6 => ?_, fun h7 => ?_, decodeBlock_of_blockSize_le,
    decodeBlock_of_lt_blockSize⟩
  · rw [blockSize_lit (headerL_eq_zero_iff.mpr h0), headerD_toNat]
  · exact blockSize_ref (mt headerL_eq_zero_iff.mp (by omega)) (mt headerL_eq_seven_iff.mp (by omega))
  · exact blockSize_refx (headerL_eq_seven_iff.mpr h7)

end Sys2Proof


/-! PROOF. The timing serializer (40_timing_serializer.md R100 to R106): the result functions `ser` and
`des` element by element, and the machine's loops as these results under the capacity of what they
append to (60_exceptions.md R232). -/

namespace Sys2Proof.Machine

/-! ### The pair of a timing (R101, R102, R105) -/

theorem pairBytes_clamp (t : Nat) :
    pairBytes (clamp t) =
      [BitVec.ofNat 8 (min t 65535 % 256), BitVec.ofNat 8 (min t 65535 / 256)] := by
  have hlow : clamp t &&& 0xFF = clamp t % 256 := Nat.and_two_pow_sub_one_eq_mod (clamp t) 8
  have hhigh : clamp t >>> 8 = clamp t / 256 := Nat.shiftRight_eq_div_pow (clamp t) 8
  rw [pairBytes, hlow, hhigh, clamp]

/-- The two bytes of a pair do not overlap, so `|` is `+`, and the sum fits in 16 bits. -/
theorem pairTiming_toNat (b0 b1 : Byte) :
    (pairTiming b0 b1).toNat = b0.toNat + 256 * b1.toNat := by
  have h0 := b0.isLt
  have h1 := b1.isLt
  have hor : b0.toNat ||| (b1.toNat <<< 8) = b1.toNat <<< 8 + b0.toNat := by
    rw [Nat.or_comm, Nat.shiftLeft_add_eq_or_of_lt h0]
  rw [pairTiming, hor, Nat.shiftLeft_eq, BitVec.toNat_ofNat]
  omega

/-! ### The result function of `SER` (R100) -/

@[simp] theorem ser_nil : ser [] = [] := rfl

theorem ser_cons (t : Nat) (ts : List Nat) : ser (t :: ts) = pairBytes (clamp t) ++ ser ts := rfl

@[simp] theorem pairBytes_length (t : Nat) : (pairBytes t).length = 2 := rfl

@[simp] theorem ser_length (ts : List Nat) : (ser ts).length = 2 * ts.length := by
  induction ts with
  | nil => rfl
  | cons t ts ih => simp [ser_cons, ih, Nat.mul_add, Nat.add_comm]

theorem ser_getElem? {ts : List Nat} {k t : Nat} (h : ts[k]? = some t) :
    (ser ts)[2 * k]? = some (BitVec.ofNat 8 (min t 65535 % 256)) ∧
      (ser ts)[2 * k + 1]? = some (BitVec.ofNat 8 (min t 65535 / 256)) := by
  induction ts generalizing k with
  | nil => simp at h
  | cons u us ih =>
    rw [ser_cons, pairBytes_clamp]
    cases k with
    | zero =>
      obtain rfl : u = t := by simpa using h
      exact ⟨rfl, rfl⟩
    | succ k => exact ih (by simpa using h)

/-! ### The loop of `SER` under a capacity (R100, R232) -/

/-- From a sink within its capacity the loop appends the whole result exactly when that fits: pairs
go in one by one, and if one does not fit then neither does the result. -/
theorem serLoop_eq {k : Sink} (ts : List Nat) {s : State}
    (hs : fits (s.sinkCap k) (s.sinkBuf k).length = true) :
    serLoop k ts s =
      if fits (s.sinkCap k) ((s.sinkBuf k).length + 2 * ts.length) then
        .ok (s.setSink k (s.sinkBuf k ++ ser ts))
      else .error .eCapacity := by
  induction ts generalizing s with
  | nil => simp [serLoop, hs]
  | cons t ts ih =>
    by_cases hpair : fits (s.sinkCap k) ((s.sinkBuf k).length + 2) = true
    · rw [serLoop, push_ok_iff.mpr ⟨hpair, rfl⟩]
      simp only
      rw [ih (by simpa using hpair)]
      simp [ser_cons, Nat.mul_add, Nat.add_assoc, Nat.add_comm 2]
    · have hall : ¬ fits (s.sinkCap k) ((s.sinkBuf k).length + 2 * (t :: ts).length) = true :=
        fun h => hpair (fits_mono h (by simp only [List.length_cons]; omega))
      rw [serLoop, push_error_iff.mpr ⟨Bool.eq_false_iff.mpr hpair, rfl⟩, if_neg hall]

theorem exec_ser_of_ok {s t : State} (h : serLoop .out s.mem.tin s = .ok t) :
    exec .ser s = .next t.finish := by
  simp only [exec, execSer, h]

theorem exec_ser_of_error {s : State} {e : Cause} (h : serLoop .out s.mem.tin s = .error e) :
    exec .ser s = .next (s.raise e 0) := by
  simp only [exec, execSer, h]

/-- Settles O23: the elements of `ser`, and the loop of `SER` with and without room in `OUT`. -/
theorem serAppendsClampedPairs : Obligations.SerAppendsClampedPairs := by
  unfold Obligations.SerAppendsClampedPairs
  intro s
  refine ⟨ser_length _, fun k t => ser_getElem?, fun hall => ?_, fun hs hfull => ?_⟩
  · have hs : fits s.par.capOut s.outLen = true := fits_mono hall (Nat.le_add_right _ _)
    exact exec_ser_of_ok ((serLoop_eq (k := .out) s.mem.tin hs).trans (if_pos hall))
  · exact exec_ser_of_error
      ((serLoop_eq (k := .out) s.mem.tin hs).trans (if_neg (Bool.eq_false_iff.mp hfull)))

/-! ### The result function of `DES` (R105, R106) -/

theorem des_cons_cons_ok_iff {b0 b1 : Byte} {rest : List Byte} {ts : List Timing} :
    des (b0 :: b1 :: rest) = .ok ts ↔
      ∃ us, des rest = .ok us ∧ ts = pairTiming b0 b1 :: us := by
  rw [des]
  cases des rest with
  | ok us => simp [eq_comm]
  | error e => simp

theorem des_singleton_ne_ok {b : Byte} {ts : List Timing} : des [b] ≠ .ok ts := nofun

theorem exists_des_eq_ok : ∀ {bs : List Byte}, bs.length % 2 = 0 → ∃ ts, des bs = .ok ts
  | [], _ => ⟨[], rfl⟩
  | [_], h => by simp at h
  | b0 :: b1 :: rest, h => by
    obtain ⟨us, hus⟩ : ∃ us, des rest = .ok us :=
      exists_des_eq_ok (by simp only [List.length_cons] at h; omega)
    exact ⟨_, des_cons_cons_ok_iff.mpr ⟨us, hus, rfl⟩⟩

theorem length_eq_of_des : ∀ {bs : List Byte} {ts : List Timing}, des bs = .ok ts →
    bs.length = 2 * ts.length
  | [], _, h => by cases h; rfl
  | [_], _, h => absurd h des_singleton_ne_ok
  | b0 :: b1 :: rest, _, h => by
    obtain ⟨us, hus, rfl⟩ := des_cons_cons_ok_iff.mp h
    have ih : rest.length = 2 * us.length := length_eq_of_des hus
    simp only [List.length_cons]
    omega

theorem des_getElem? : ∀ {bs : List Byte} {ts : List Timing} {k : Nat} {b0 b1 : Byte},
    des bs = .ok ts → bs[2 * k]? = some b0 → bs[2 * k + 1]? = some b1 →
      ts[k]? = some (pairTiming b0 b1)
  | [], _, _, _, _, _, h0, _ => by simp at h0
  | [_], _, _, _, _, h, _, _ => absurd h des_singleton_ne_ok
  | c0 :: c1 :: rest, _, k, b0, b1, h, h0, h1 => by
    obtain ⟨us, hus, rfl⟩ := des_cons_cons_ok_iff.mp h
    cases k with
    | zero =>
      obtain rfl : c0 = b0 := by simpa using h0
      obtain rfl : c1 = b1 := by simpa using h1
      rfl
    | succ k => exact des_getElem? (k := k) hus h0 h1

/-! ### The loop of `DES` under a capacity (R105, R106, R232) -/

/-- The parity test comes before the first append, so it wins over the capacity. -/
theorem desLoop_of_odd {bs : List Byte} (h : bs.length % 2 = 1) (s : State) :
    desLoop bs s = .error .eOdd := by
  match bs with
  | [] => simp at h
  | [_] => rfl
  | b0 :: b1 :: rest =>
    have hrest : rest.length % 2 ≠ 0 := by simp only [List.length_cons] at h; omega
    rw [desLoop, if_pos hrest]

/-- From a `TOUT` within its capacity the loop appends the whole result exactly when that fits. -/
theorem desLoop_eq : ∀ {bs : List Byte} {ts : List Timing} {s : State}, des bs = .ok ts →
    fits s.par.capTout s.mem.tout.length = true →
    desLoop bs s =
      if fits s.par.capTout (s.mem.tout.length + ts.length) then
        .ok { s with mem := { s.mem with tout := s.mem.tout ++ ts } }
      else .error .eCapacity
  | [], _, s, h, hs => by
    cases h
    simp [desLoop, hs]
  | [_], _, _, h, _ => absurd h des_singleton_ne_ok
  | b0 :: b1 :: rest, _, s, h, _ => by
    obtain ⟨us, hus, rfl⟩ := des_cons_cons_ok_iff.mp h
    have heven : ¬ rest.length % 2 ≠ 0 := by rw [length_eq_of_des hus]; omega
    rw [desLoop, if_neg heven]
    by_cases hone : fits s.par.capTout (s.mem.tout.length + 1) = true
    · rw [pushTimings_ok_iff.mpr ⟨hone, rfl⟩]
      simp only
      rw [desLoop_eq hus (by simpa using hone)]
      simp [Nat.add_assoc, Nat.add_comm 1]
    · have hall : ¬ fits s.par.capTout (s.mem.tout.length + (pairTiming b0 b1 :: us).length) = true :=
        fun h => hone (fits_mono h (by simp only [List.length_cons]; omega))
      rw [pushTimings_error_iff.mpr ⟨Bool.eq_false_iff.mpr hone, rfl⟩, if_neg hall]

theorem exec_des_of_ok {s t : State} (h : desLoop s.mem.inp s = .ok t) :
    exec .des s = .next t.finish := by
  simp only [exec, execDes, h]

theorem exec_des_of_error {s : State} {e : Cause} (h : desLoop s.mem.inp s = .error e) :
    exec .des s = .next (s.raise e 0) := by
  simp only [exec, execDes, h]

/-- Settles O24: the odd payload by the first parity test; the even one by the result function `des`,
its elements, and the loop of `DES` with and without room in `TOUT`. -/
theorem desRule : Obligations.DesRule := by
  unfold Obligations.DesRule
  intro s
  refine ⟨fun hodd => exec_des_of_error (desLoop_of_odd hodd s), fun heven => ?_⟩
  obtain ⟨ts, hts⟩ := exists_des_eq_ok heven
  have hlen : s.inLen / 2 = ts.length := by
    have hbytes : s.inLen = 2 * ts.length := length_eq_of_des hts
    omega
  rw [hlen]
  refine ⟨ts, rfl, fun k b0 b1 h0 h1 => ⟨_, des_getElem? hts h0 h1, pairTiming_toNat b0 b1⟩,
    fun hall => ?_, fun hs hfull => ?_⟩
  · have hs : fits s.par.capTout s.toutLen = true := fits_mono hall (Nat.le_add_right _ _)
    exact exec_des_of_ok ((desLoop_eq hts hs).trans (if_pos hall))
  · exact exec_des_of_error ((desLoop_eq hts hs).trans (if_neg (Bool.eq_false_iff.mp hfull)))

end Sys2Proof.Machine

/-! PROOF. The window matcher (41_window_matcher.md): a match length is a greatest common run
(R122), and the search keeps the nearest of the longest matches seen so far (R124). -/

namespace Sys2Proof.Machine

/-! ### The common run of two sequences (R123) -/

theorem runLength_cons_of_ne {α : Type} [DecidableEq α] {x y : α} (h : x ≠ y) (cap : Nat)
    (xs ys : List α) : runLength (cap + 1) (x :: xs) (y :: ys) = 0 := if_neg h

@[simp] theorem runLength_cons_self {α : Type} [DecidableEq α] (cap : Nat) (x : α)
    (xs ys : List α) :
    runLength (cap + 1) (x :: xs) (x :: ys) = runLength cap xs ys + 1 := if_pos rfl

theorem runLength_le {α : Type} [DecidableEq α] :
    ∀ (cap : Nat) (xs ys : List α), runLength cap xs ys ≤ cap
  | 0, _, _ => Nat.le_refl 0
  | _ + 1, [], _ => Nat.zero_le _
  | _ + 1, _ :: _, [] => Nat.zero_le _
  | cap + 1, x :: xs, y :: ys => by
    by_cases hxy : x = y
    · subst hxy
      rw [runLength_cons_self]
      exact Nat.succ_le_succ (runLength_le cap xs ys)
    · rw [runLength_cons_of_ne hxy]
      exact Nat.zero_le _

theorem getElem?_eq_of_lt_runLength {α : Type} [DecidableEq α] :
    ∀ {cap j : Nat} {xs ys : List α}, j < runLength cap xs ys → xs[j]? = ys[j]?
  | 0, _, _, _, h => absurd h (Nat.not_lt_zero _)
  | _ + 1, _, [], _, h => absurd h (Nat.not_lt_zero _)
  | _ + 1, _, _ :: _, [], h => absurd h (Nat.not_lt_zero _)
  | cap + 1, j, x :: xs, y :: ys, h => by
    by_cases hxy : x = y
    · subst hxy
      cases j with
      | zero => rfl
      | succ j =>
        rw [runLength_cons_self] at h
        rw [List.getElem?_cons_succ, List.getElem?_cons_succ]
        exact getElem?_eq_of_lt_runLength (Nat.lt_of_succ_lt_succ h)
    · rw [runLength_cons_of_ne hxy] at h
      exact absurd h (Nat.not_lt_zero _)

/-- A run that ends below its cap and inside the first sequence ends at a mismatch; the end of the
second sequence is one. -/
theorem getElem?_runLength_ne {α : Type} [DecidableEq α] :
    ∀ {cap : Nat} {xs ys : List α}, runLength cap xs ys < cap → runLength cap xs ys < xs.length →
      xs[runLength cap xs ys]? ≠ ys[runLength cap xs ys]?
  | 0, _, _, h, _ => absurd h (Nat.not_lt_zero _)
  | _ + 1, [], _, _, h => absurd h (Nat.not_lt_zero _)
  | _ + 1, _ :: _, [], _, _ => nofun
  | cap + 1, x :: xs, y :: ys, hcap, hlen => by
    by_cases hxy : x = y
    · subst hxy
      rw [runLength_cons_self] at hcap hlen ⊢
      exact getElem?_runLength_ne (Nat.lt_of_succ_lt_succ hcap) (Nat.lt_of_succ_lt_succ hlen)
    · rw [runLength_cons_of_ne hxy]
      exact fun h => hxy (Option.some.inj h)

/-! ### The match length (R122) -/

theorem matchLength_le (data : List Byte) (pos d : Nat) :
    matchLength data pos d ≤ min 264 (data.length - pos) := runLength_le _ _ _

theorem getElem?_eq_of_lt_matchLength {data : List Byte} {pos d j : Nat}
    (h : j < matchLength data pos d) : data[pos + j]? = data[pos - d + j]? := by
  have hrun : (data.drop pos)[j]? = (data.drop (pos - d))[j]? := getElem?_eq_of_lt_runLength h
  simpa only [List.getElem?_drop] using hrun

theorem getElem?_matchLength_ne {data : List Byte} {pos d : Nat}
    (h : matchLength data pos d < min 264 (data.length - pos)) :
    data[pos + matchLength data pos d]? ≠ data[pos - d + matchLength data pos d]? := by
  have hlen : matchLength data pos d < (data.drop pos).length := by
    rw [List.length_drop]
    exact h.trans_le (Nat.min_le_right _ _)
  have hstop : (data.drop pos)[matchLength data pos d]? ≠
      (data.drop (pos - d))[matchLength data pos d]? := getElem?_runLength_ne h hlen
  simpa only [List.getElem?_drop] using hstop

/-- Settles O26: the bound, the agreement and the mismatch at the stop, each from the run. -/
theorem matchLengthIsGreatest : Obligations.MatchLengthIsGreatest := by
  unfold Obligations.MatchLengthIsGreatest
  intro data pos d _ _ _
  exact ⟨matchLength_le data pos d, fun _ => getElem?_eq_of_lt_matchLength, getElem?_matchLength_ne⟩

/-! ### The search (R124) -/

/-- `best`, a length and a distance, is what R124 asks for among the distances `1 .. n`: a longest
match, and the nearest of those. -/
structure IsNearestLongest (data : List Byte) (pos n : Nat) (best : Nat × Nat) : Prop where
  one_le : 1 ≤ best.2
  le : best.2 ≤ n
  length_eq : best.1 = matchLength data pos best.2
  longest : ∀ d, 1 ≤ d → d ≤ n → matchLength data pos d ≤ best.1
  nearest : ∀ d, 1 ≤ d → d ≤ n → matchLength data pos d = best.1 → best.2 ≤ d

variable {data : List Byte} {pos n : Nat} {best : Nat × Nat}

theorem isNearestLongest_one (data : List Byte) (pos : Nat) :
    IsNearestLongest data pos 1 (matchLength data pos 1, 1) where
  one_le := Nat.le_refl 1
  le := Nat.le_refl 1
  length_eq := rfl
  longest d h1 hn := by rw [Nat.le_antisymm hn h1]
  nearest _ h1 _ _ := h1

/-- A strictly longer candidate takes over: no nearer distance reaches its length. -/
theorem IsNearestLongest.replace (h : IsNearestLongest data pos n best)
    (hlt : best.1 < matchLength data pos (n + 1)) :
    IsNearestLongest data pos (n + 1) (matchLength data pos (n + 1), n + 1) where
  one_le := Nat.le_add_left 1 n
  le := Nat.le_refl _
  length_eq := rfl
  longest d h1 hd := by
    obtain hd | rfl := Nat.le_succ_iff.mp hd
    · exact (h.longest d h1 hd).trans hlt.le
    · exact Nat.le_refl _
  nearest d h1 hd heq := by
    obtain hd | rfl := Nat.le_succ_iff.mp hd
    · have hshort : matchLength data pos d ≤ best.1 := h.longest d h1 hd
      exact absurd heq (hshort.trans_lt hlt).ne
    · exact Nat.le_refl _

/-- A candidate that is not longer changes nothing: on a tie the nearer distance stays. -/
theorem IsNearestLongest.keep (h : IsNearestLongest data pos n best)
    (hle : matchLength data pos (n + 1) ≤ best.1) :
    IsNearestLongest data pos (n + 1) best where
  one_le := h.one_le
  le := Nat.le_succ_of_le h.le
  length_eq := h.length_eq
  longest d h1 hd := by
    obtain hd | rfl := Nat.le_succ_iff.mp hd
    · exact h.longest d h1 hd
    · exact hle
  nearest d h1 hd heq := by
    obtain hd | rfl := Nat.le_succ_iff.mp hd
    · exact h.nearest d h1 hd heq
    · exact Nat.le_succ_of_le h.le

/-- The invariant of the loop: after `k` further candidates the answer covers `k` more distances. -/
theorem isNearestLongest_searchFrom (k : Nat) (h : IsNearestLongest data pos n best) :
    IsNearestLongest data pos (n + k) (searchFrom data pos k (n + 1) best) := by
  induction k generalizing n best with
  | zero => exact h
  | succ k ih =>
    rw [searchFrom, Nat.add_comm k 1, ← Nat.add_assoc]
    split
    next hlt => exact ih (h.replace hlt)
    next hge => exact ih (h.keep (Nat.le_of_not_lt hge))

theorem matchAt_zero (data : List Byte) : matchAt data 0 = none := rfl

theorem exists_matchAt_eq_some (data : List Byte) (hpos : 1 ≤ pos) :
    ∃ best, matchAt data pos = some best ∧ IsNearestLongest data pos (min pos 8192) best := by
  have hcount : 1 + (min pos 8192 - 1) = min pos 8192 := by omega
  have hbest := isNearestLongest_searchFrom (min pos 8192 - 1) (isNearestLongest_one data pos)
  rw [hcount] at hbest
  exact ⟨_, if_neg (Nat.one_le_iff_ne_zero.mp hpos), hbest⟩

/-- Settles O27: the loop's invariant over all the candidates of R121. -/
theorem matchSelectsLongestNearest : Obligations.MatchSelectsLongestNearest := by
  unfold Obligations.MatchSelectsLongestNearest
  intro data pos _
  refine ⟨fun h => h ▸ matchAt_zero data, fun hpos => ?_⟩
  obtain ⟨⟨len, dist⟩, hmatch, hbest⟩ := exists_matchAt_eq_some data hpos
  exact ⟨len, dist, hmatch, hbest.one_le, hbest.le, hbest.length_eq,
    fun d h1 hd => ⟨hbest.longest d h1 hd, hbest.nearest d h1 hd⟩⟩

end Sys2Proof.Machine

/-! PROOF. Literal runs (42_block_encoder.md R140, R142, R149): `lits` and `flush` cut a run block by
block, so a fact about them is an induction over the chunks; the decoder's result function reads
such blocks back (43_block_decoder.md R183). -/

namespace Sys2Proof.Machine

variable {run data : List Byte}

/-! ### Cutting a run into chunks (R88, R142) -/

/-- A property of runs holds of all of them when each non-empty run inherits it from what is left
behind its first chunk. -/
theorem chunk_induction {P : List Byte → Prop} (nil : P [])
    (chunk : ∀ run, run ≠ [] → P (run.drop 32) → P run) (run : List Byte) : P run := by
  by_cases hrun : run = []
  · exact hrun ▸ nil
  · have hpos : 0 < run.length := List.length_pos_iff.mpr hrun
    exact chunk run hrun (chunk_induction nil chunk (run.drop 32))
termination_by run.length
decreasing_by rw [List.length_drop]; omega

theorem chunkCount_of_ne_nil (hrun : run ≠ []) :
    (run.length + 31) / 32 = ((run.drop 32).length + 31) / 32 + 1 := by
  have hpos : 0 < run.length := List.length_pos_iff.mpr hrun
  rw [List.length_drop]
  omega

@[simp] theorem lits_nil : lits [] = [] := rfl

theorem lits_of_ne_nil (hrun : run ≠ []) :
    lits run = .lit (run.take 32) :: lits (run.drop 32) := by
  rw [lits, chunkCount_of_ne_nil hrun, chunkLits, lits]

theorem flush_of_ne_nil {block blocks : List Byte} (hrun : run ≠ [])
    (hblock : emitLit (run.take 32) = .ok block)
    (hblocks : flush (run.drop 32) = .ok blocks) : flush run = .ok (block ++ blocks) := by
  rw [flush] at hblocks
  simp only [flush, chunkCount_of_ne_nil hrun, flushChunks, hblock, hblocks]

@[simp] theorem lits_length (run : List Byte) : (lits run).length = (run.length + 31) / 32 := by
  induction run using chunk_induction with
  | nil => rfl
  | chunk run hrun ih => rw [lits_of_ne_nil hrun, List.length_cons, ih, chunkCount_of_ne_nil hrun]

/-! ### One literal block (R72, R140, R141) -/

theorem wf_lit_iff : (Instr.lit data).wf = true ↔ 1 ≤ data.length ∧ data.length ≤ 32 := by
  simp [Instr.wf]

theorem wf_lit_take (hrun : run ≠ []) : (Instr.lit (run.take 32)).wf = true := by
  have hpos : 0 < run.length := List.length_pos_iff.mpr hrun
  rw [wf_lit_iff, List.length_take]
  omega

theorem headerByte_zero {n : Nat} (hn : n < 32) :
    headerByte 0 (BitVec.ofNat 5 n) = BitVec.ofNat 8 n := by
  apply BitVec.eq_of_toNat_eq
  rw [headerByte, BitVec.toNat_append]
  simp only [BitVec.toNat_ofNat, BitVec.ofNat_eq_ofNat, Nat.zero_mod, Nat.zero_shiftLeft,
    Nat.zero_or]
  omega

/-- The encoding table and the encoder agree on a literal block. -/
theorem encode_lit (hwf : (Instr.lit data).wf = true) : encode (.lit data) = litBytes data := by
  obtain ⟨hmin, hmax⟩ := wf_lit_iff.mp hwf
  rw [encode, headerByte_zero (by omega), litBytes]

theorem emitLit_of_wf (hwf : (Instr.lit data).wf = true) :
    emitLit data = .ok (encode (.lit data)) := by
  obtain ⟨hmin, hmax⟩ := wf_lit_iff.mp hwf
  rw [encode_lit hwf]
  exact if_neg (not_or.mpr ⟨Nat.not_lt.mpr hmin, Nat.not_lt.mpr hmax⟩)

/-! ### The bytes of a run (R142) -/

/-- `flush` never fails, and gives the encodings of the blocks of `lits`. -/
theorem flush_eq (run : List Byte) : flush run = .ok ((lits run).flatMap encode) := by
  induction run using chunk_induction with
  | nil => rfl
  | chunk run hrun ih =>
    rw [flush_of_ne_nil hrun (emitLit_of_wf (wf_lit_take hrun)) ih, lits_of_ne_nil hrun,
      List.flatMap_cons]

theorem encode_lits_length (run : List Byte) :
    ((lits run).flatMap encode).length = run.length + (run.length + 31) / 32 := by
  induction run using chunk_induction with
  | nil => rfl
  | chunk run hrun ih =>
    have hblock : (encode (.lit (run.take 32))).length = _ := Laws.EncodeSize.lit _
    rw [lits_of_ne_nil hrun, List.flatMap_cons, List.length_append, hblock, ih,
      chunkCount_of_ne_nil hrun]
    simp only [Instr.size, List.length_take, List.length_drop]
    omega

/-! ### Reading literal blocks back (R172, R183) -/

theorem drop_add_of_drop_eq_append {s front rest : List Byte} {rp : Nat}
    (h : s.drop rp = front ++ rest) : s.drop (rp + front.length) = rest := by
  rw [← List.drop_drop, h, List.drop_left]

theorem decompFrom_of_drop_eq_nil {s : List Byte} {rp : Nat} (h : s.drop rp = []) (k : Nat)
    (out : List Byte) : decompFrom s k rp out = .ok out := by
  cases k with
  | zero => rfl
  | succ k => rw [decompFrom, h]

theorem decompFrom_lit {s rest : List Byte} {rp : Nat} (hwf : (Instr.lit data).wf = true)
    (h : s.drop rp = encode (.lit data) ++ rest) (k : Nat) (out : List Byte) :
    decompFrom s (k + 1) rp out =
      decompFrom s k (rp + (encode (.lit data)).length) (out ++ data) := by
  obtain ⟨hmin, hmax⟩ := wf_lit_iff.mp hwf
  have hheader : (BitVec.ofNat 8 (data.length - 1)).toNat = data.length - 1 := by
    rw [BitVec.toNat_ofNat]; omega
  have hl : (data.length - 1) >>> 5 = 0 := by omega
  have hd : ((data.length - 1) &&& 0x1F) + 1 = data.length := by
    have hmask : (data.length - 1) &&& 0x1F = (data.length - 1) % 2 ^ 5 :=
      Nat.and_two_pow_sub_one_eq_mod _ 5
    omega
  have hfits : ¬ (data ++ rest).length < data.length := by simp
  rw [encode_lit hwf, litBytes, List.cons_append] at h
  rw [decompFrom, h, encode_lit hwf, litBytes]
  simp only [hheader, hl, hd, if_true, if_neg hfits, List.take_left, List.length_cons]
  congr 1
  omega

/-- Wherever the blocks of a run stand in a stream, the decoder appends the run and goes on behind
them, one block of its bound for each. -/
theorem decompFrom_lits {s rest : List Byte} {rp : Nat}
    (h : s.drop rp = (lits run).flatMap encode ++ rest) (k : Nat) (out : List Byte) :
    decompFrom s (k + (lits run).length) rp out =
      decompFrom s k (rp + ((lits run).flatMap encode).length) (out ++ run) := by
  induction run using chunk_induction generalizing rp out with
  | nil => simp
  | chunk run hrun ih =>
    rw [lits_of_ne_nil hrun, List.flatMap_cons, List.append_assoc] at h
    rw [lits_of_ne_nil hrun, List.length_cons, ← Nat.add_assoc,
      decompFrom_lit (wf_lit_take hrun) h, ih (drop_add_of_drop_eq_append h), List.flatMap_cons,
      List.length_append, Nat.add_assoc, List.append_assoc, List.take_append_drop]

/-- The blocks of a run, alone in a stream, decode to the run. -/
theorem decomp_lits (run : List Byte) : decomp ((lits run).flatMap encode) = .ok run := by
  have hlen : ((lits run).flatMap encode).length = run.length + (lits run).length := by
    rw [encode_lits_length, lits_length]
  rw [decomp, hlen, decompFrom_lits (rest := []) (by simp), List.nil_append]
  exact decompFrom_of_drop_eq_nil (by simp) _ _

theorem comp_zero (data : List Byte) : comp data 0 = flush data := if_pos rfl

/-- Settles O32: level 0 is one `flush`, whose bytes are those of `lits`, which decode to the run. -/
theorem compLevelZero : Obligations.CompLevelZero := by
  unfold Obligations.CompLevelZero
  intro data
  exact ⟨_, (comp_zero data).trans (flush_eq data), rfl, encode_lits_length data, decomp_lits data⟩

end Sys2Proof.Machine

/-! PROOF. The copy of a reference (43_block_decoder.md R175): one byte of it, what it keeps, the
recurrence by which it reads bytes it wrote itself, and the period that follows. -/

namespace Sys2Proof.Machine

variable {out : List Byte} {distance : Nat}

theorem copied_succ (h1 : 1 ≤ distance) (hle : distance ≤ out.length) (length : Nat) :
    copied out (length + 1) distance =
      copied (out ++ [out[out.length - distance]]) length distance := by
  have hread : memRead out (out.length - distance) 1 = [out[out.length - distance]] :=
    List.take_one_drop_eq_of_lt_length (by omega)
  rw [copied, hread]

theorem copied_length (h1 : 1 ≤ distance) (hle : distance ≤ out.length) (length : Nat) :
    (copied out length distance).length = out.length + length := by
  induction length generalizing out with
  | zero => rfl
  | succ length ih =>
    rw [copied_succ h1 hle, ih (by simp; omega), List.length_append, List.length_singleton]
    omega

theorem copied_getElem?_of_lt {j : Nat} (hj : j < out.length) (length : Nat) :
    (copied out length distance)[j]? = out[j]? := by
  induction length generalizing out with
  | zero => rfl
  | succ length ih =>
    rw [copied, ih (by simp; omega), List.getElem?_append_left hj]

/-- The recurrence of R175. The byte a step appends is the one `distance` places behind, and later
steps change neither. -/
theorem copied_getElem?_add (h1 : 1 ≤ distance) (hle : distance ≤ out.length) {length j : Nat}
    (hj : j < length) :
    (copied out length distance)[out.length + j]? =
      (copied out length distance)[out.length - distance + j]? := by
  induction length generalizing out j with
  | zero => omega
  | succ length ih =>
    rw [copied_succ h1 hle]
    cases j with
    | zero =>
      rw [copied_getElem?_of_lt (by simp), copied_getElem?_of_lt (by simp), Nat.add_zero,
        List.getElem?_concat_length, Nat.add_zero, List.getElem?_append_left (by omega),
        List.getElem?_eq_getElem]
    | succ j =>
      have hgrown : (out ++ [out[out.length - distance]]).length = out.length + 1 := by simp
      have hplace : out.length + (j + 1) = out.length + 1 + j := by omega
      have hsource : out.length - distance + (j + 1) = out.length + 1 - distance + j := by omega
      rw [hplace, hsource, ← hgrown, ih (by omega) (by omega)]

/-- The recurrence, followed back a period at a time into the bytes before the copy. -/
theorem copied_getElem?_mod (h1 : 1 ≤ distance) (hle : distance ≤ out.length) {length j : Nat}
    (hj : j < length) :
    (copied out length distance)[out.length + j]? =
      out[out.length - distance + j % distance]? := by
  induction j using Nat.strong_induction_on with
  | h j ih =>
    rw [copied_getElem?_add h1 hle hj]
    by_cases hfirst : j < distance
    · rw [Nat.mod_eq_of_lt hfirst, copied_getElem?_of_lt (by omega)]
    · have hback : out.length - distance + j = out.length + (j - distance) := by omega
      rw [hback, ih (j - distance) (by omega) (by omega), ← Nat.mod_eq_sub_mod (by omega)]

/-- Settles O20: the kept bytes and the recurrence by induction on the length of the copy, the period
by strong induction on the place in it. -/
theorem overlappingCopyIsPeriodic : Obligations.OverlappingCopyIsPeriodic := by
  unfold Obligations.OverlappingCopyIsPeriodic
  intro out length distance h1 hle
  exact ⟨copied_length h1 hle length, fun _ hj => copied_getElem?_of_lt hj length,
    fun _ hj => ⟨copied_getElem?_add h1 hle hj, copied_getElem?_mod h1 hle hj⟩⟩

end Sys2Proof.Machine

/-! PROOF. Encoder and decoder (30_encoding.md R71 to R77, R86 to R89): the header byte from its
fields, decoding an encoding and encoding what was decoded, the blocks of `emit_ref`, and the
disassembler over a list of blocks. -/

namespace Sys2Proof

open Machine

/-! ### The header byte from its two fields (R71) -/

theorem headerByte_toNat (l : BitVec 3) (d : BitVec 5) :
    (headerByte l d).toNat = l.toNat * 32 + d.toNat := by
  rw [headerByte, BitVec.toNat_append, ← Nat.shiftLeft_add_eq_or_of_lt d.isLt, Nat.shiftLeft_eq]

@[simp] theorem headerL_headerByte (l : BitVec 3) (d : BitVec 5) :
    headerL (headerByte l d) = l := by
  have hd := d.isLt
  apply BitVec.eq_of_toNat_eq
  rw [headerL_toNat, headerByte_toNat]
  omega

theorem headerD_toNat_mod (h : Byte) : (headerD h).toNat = h.toNat % 32 :=
  (headerD_toNat h).trans (Nat.and_two_pow_sub_one_eq_mod h.toNat 5)

@[simp] theorem headerD_headerByte (l : BitVec 3) (d : BitVec 5) :
    headerD (headerByte l d) = d := by
  have hd := d.isLt
  apply BitVec.eq_of_toNat_eq
  rw [headerD_toNat_mod, headerByte_toNat]
  omega

@[simp] theorem headerByte_header (h : Byte) : headerByte (headerL h) (headerD h) = h := by
  apply BitVec.eq_of_toNat_eq
  rw [headerByte_toNat, headerL_toNat, headerD_toNat_mod]
  omega

/-! ### Decoding an encoding (R77) -/

theorem decodeBlock_encode_lit {data : List Byte} (hwf : (Instr.lit data).wf = true)
    (rest : List Byte) : decodeBlock (encode (.lit data) ++ rest) = .ok (.lit data, rest) := by
  obtain ⟨hmin, hmax⟩ := wf_lit_iff.mp hwf
  have hcount : (BitVec.ofNat 5 (data.length - 1)).toNat + 1 = data.length := by
    rw [BitVec.toNat_ofNat]; omega
  rw [encode, List.cons_append, decodeBlock_lit (headerL_headerByte _ _),
    headerD_headerByte, hcount]
  simp

theorem wf_ref_iff {lf : BitVec 3} {dhi : BitVec 5} {dlo : Byte} :
    (Instr.ref lf dhi dlo).wf = true ↔ lf ≠ 0 ∧ lf ≠ 7 := by
  simp [Instr.wf]

theorem decodeBlock_encode {i : Instr} (hwf : i.wf = true) (hspace : i.space = .stream)
    (rest : List Byte) : decodeBlock (encode i ++ rest) = .ok (i, rest) := by
  cases i with
  | lit data => exact decodeBlock_encode_lit hwf rest
  | ref lf dhi dlo =>
    obtain ⟨h0, h7⟩ := wf_ref_iff.mp hwf
    have hdec := decodeBlock_ref (h := headerByte lf dhi) (by simpa using h0) (by simpa using h7)
      dlo rest
    simpa [encode] using hdec
  | refx dhi c dlo =>
    have hdec := decodeBlock_refx (h := headerByte 7 dhi) (headerL_headerByte 7 dhi) c dlo rest
    simpa [encode] using hdec
  | _ => simp [Instr.space] at hspace

/-- Settles O3: the blocks by their headers, the operations by their code. -/
theorem decodeOfEncode : Obligations.DecodeOfEncode := by
  unfold Obligations.DecodeOfEncode
  intro i rest hwf
  cases i with
  | lit data => exact decodeBlock_encode hwf rfl rest
  | ref lf dhi dlo => exact decodeBlock_encode hwf rfl rest
  | refx dhi c dlo => exact decodeBlock_encode hwf rfl rest
  | _ => rfl

/-! ### Encoding what was decoded (R77) -/

theorem encode_decodeBlock_lit {h : Byte} {t : List Byte} (h0 : headerL h = 0)
    (hlen : (headerD h).toNat + 1 ≤ t.length) :
    (Instr.lit (t.take ((headerD h).toNat + 1))).wf = true ∧
      encode (.lit (t.take ((headerD h).toNat + 1))) = h :: t.take ((headerD h).toNat + 1) := by
  have hcount : (t.take ((headerD h).toNat + 1)).length = (headerD h).toNat + 1 := by
    rw [List.length_take]; omega
  have hd := (headerD h).isLt
  refine ⟨wf_lit_iff.mpr (by omega), ?_⟩
  rw [encode, hcount, ← h0, Nat.add_sub_cancel, BitVec.ofNat_toNat, BitVec.setWidth_eq,
    headerByte_header]

/-- What the stream decoder reads, by the kind of the header: a well-formed block, and its encoding
is what it consumed. -/
theorem encode_of_decodeBlock {bs rest : List Byte} {i : Instr}
    (hdec : decodeBlock bs = .ok (i, rest)) :
    i.wf = true ∧ i.space = .stream ∧ encode i ++ rest = bs := by
  match bs with
  | [] => cases hdec
  | h :: t =>
    by_cases h0 : headerL h = 0
    · rw [decodeBlock_lit h0] at hdec
      split at hdec
      · cases hdec
      next hlen =>
        cases hdec
        obtain ⟨hwf, henc⟩ := encode_decodeBlock_lit h0 (Nat.le_of_not_lt hlen)
        exact ⟨hwf, rfl, by rw [henc, List.cons_append, List.take_append_drop]⟩
    · by_cases h7 : headerL h = 7
      · match t with
        | c :: b :: rest' =>
          rw [decodeBlock_refx h7] at hdec
          cases hdec
          exact ⟨rfl, rfl, by simp [encode, ← h7]⟩
        | [_] | [] => simp [decodeBlock, h7] at hdec
      · match t with
        | b :: rest' =>
          rw [decodeBlock_ref h0 h7] at hdec
          cases hdec
          exact ⟨wf_ref_iff.mpr ⟨h0, h7⟩, rfl, by simp [encode]⟩
        | [] =>
          have htrunc : decodeBlock [h] = .error .truncated := (if_neg h0).trans (if_neg h7)
          rw [htrunc] at hdec
          cases hdec

/-- Settles O4, by the kind of the header. -/
theorem encodeOfDecode : Obligations.EncodeOfDecode := by
  unfold Obligations.EncodeOfDecode
  exact fun _ _ _ => encode_of_decodeBlock

/-! ### Reference blocks from their operands (R75, R87, R143) -/

/-- The `Dhi` and `Dlo` fields of a distance (R75), as numbers. -/
theorem distance_fields {distance : Nat} (hmax : distance ≤ 8192) :
    (BitVec.ofNat 5 ((distance - 1) >>> 8)).toNat = (distance - 1) / 256 ∧
      (BitVec.ofNat 8 ((distance - 1) &&& 0xFF)).toNat = (distance - 1) % 256 := by
  have hlow : (distance - 1) &&& 0xFF = (distance - 1) % 256 :=
    Nat.and_two_pow_sub_one_eq_mod (distance - 1) 8
  rw [hlow, Nat.shiftRight_eq_div_pow, BitVec.toNat_ofNat, BitVec.toNat_ofNat]
  omega

/-- A header byte put together from numbers (R75) is the byte with these fields. -/
theorem ofNat_header (l : Nat) {d : Nat} (hd : d < 32) :
    BitVec.ofNat 8 ((l <<< 5) ||| d) = headerByte (BitVec.ofNat 3 l) (BitVec.ofNat 5 d) := by
  apply BitVec.eq_of_toNat_eq
  rw [headerByte_toNat, ← Nat.shiftLeft_add_eq_or_of_lt hd, Nat.shiftLeft_eq]
  simp only [BitVec.toNat_ofNat]
  omega

variable {length distance : Nat}

theorem emitRef_of_range (h3 : 3 ≤ length) (h264 : length ≤ 264) (h1 : 1 ≤ distance)
    (h8192 : distance ≤ 8192) : emitRef length distance = .ok (refBytes length distance) := by
  have hlen : ¬ (length < 3 ∨ 264 < length) := by omega
  have hdist : ¬ (distance < 1 ∨ 8192 < distance) := by omega
  exact (if_neg hlen).trans (if_neg hdist)

/-- The block the assembler makes of operands in range (R75, R87): the same bytes as `emit_ref`, the
same length and distance. -/
theorem exists_assembleRef (h3 : 3 ≤ length) (h264 : length ≤ 264) (h1 : 1 ≤ distance)
    (h8192 : distance ≤ 8192) :
    ∃ i, assembleRef length distance = some i ∧ i.wf = true ∧ i.space = .stream ∧
      refBytes length distance = encode i ∧ RefWith i length distance = true := by
  obtain ⟨hhi, hlo⟩ := distance_fields h8192
  have hlen : ¬ (length < 3 ∨ 264 < length) := by omega
  have hdist : ¬ (distance < 1 ∨ 8192 < distance) := by omega
  have hhigh : (distance - 1) >>> 8 < 32 := by omega
  have hfields : distance = (distance - 1) / 256 * 256 + (distance - 1) % 256 + 1 := by omega
  by_cases hshort : length - 2 ≤ 6
  · have hlf : (BitVec.ofNat 3 (length - 2)).toNat = length - 2 := by
      rw [BitVec.toNat_ofNat]; omega
    refine ⟨_, (if_neg hlen).trans ((if_neg hdist).trans (if_pos hshort)), ?_, rfl, ?_, ?_⟩
    · simp only [wf_ref_iff, ne_eq, BitVec.toNat_eq, hlf]
      exact ⟨by simp; omega, by simp; omega⟩
    · rw [refBytes, if_neg (by omega), ofNat_header _ hhigh]
      rfl
    · simp only [RefWith, hlf, hhi, hlo, Bool.and_eq_true, decide_eq_true_eq]
      omega
  · have hc : (BitVec.ofNat 8 (length - 2 - 7)).toNat = length - 9 := by
      rw [BitVec.toNat_ofNat]; omega
    refine ⟨_, (if_neg hlen).trans ((if_neg hdist).trans (if_neg hshort)), rfl, rfl, ?_, ?_⟩
    · rw [refBytes, if_pos (by omega), ofNat_header _ hhigh]
      rfl
    · simp only [RefWith, hc, hhi, hlo, Bool.and_eq_true, decide_eq_true_eq]
      omega

/-- Settles O6: the short form and the extended form, each field by field. -/
theorem emitRefRoundTrip : Obligations.EmitRefRoundTrip := by
  unfold Obligations.EmitRefRoundTrip
  intro length distance h3 h264 h1 h8192
  obtain ⟨i, hasm, hwf, -, hbytes, hwith⟩ := exists_assembleRef h3 h264 h1 h8192
  exact ⟨i, hasm, hwf, hbytes ▸ emitRef_of_range h3 h264 h1 h8192, hwith⟩

/-! ### The disassembler (R89) -/

/-- `encode i` is `i.size` bytes long, for every instruction. -/
theorem encode_length (i : Instr) : (encode i).length = i.size := by
  cases i <;> simp [encode, Instr.size]

theorem two_le_size {i : Instr} (hwf : i.wf = true) (hspace : i.space = .stream) : 2 ≤ i.size := by
  cases i with
  | lit data => have := wf_lit_iff.mp hwf; simp only [Instr.size]; omega
  | ref lf dhi dlo => exact Nat.le_refl 2
  | refx dhi c dlo => exact Nat.le_succ 2
  | _ => simp [Instr.space] at hspace

theorem disassembleUpTo_nil (k : Nat) : disassembleUpTo k [] = ([], none) := by
  cases k <;> rfl

theorem disassembleUpTo_of_decodeBlock {bs rest : List Byte} {i : Instr}
    (hdec : decodeBlock bs = .ok (i, rest)) (k : Nat) :
    disassembleUpTo (k + 1) bs =
      (i :: (disassembleUpTo k rest).1, (disassembleUpTo k rest).2) := by
  match bs with
  | [] => cases hdec
  | b :: t => simp only [disassembleUpTo, hdec]

/-- With a bound of at least one block per byte the disassembler reads all the blocks. -/
theorem disassembleUpTo_flatMap_encode (is : List Instr)
    (his : ∀ i ∈ is, i.wf = true ∧ i.space = .stream) (k : Nat)
    (hk : (is.flatMap encode).length ≤ k) :
    disassembleUpTo k (is.flatMap encode) = (is, none) := by
  induction is generalizing k with
  | nil => exact disassembleUpTo_nil k
  | cons i is ih =>
    obtain ⟨⟨hwf, hspace⟩, hrest⟩ := List.forall_mem_cons.mp his
    have hsize := two_le_size hwf hspace
    rw [List.flatMap_cons, List.length_append, encode_length] at hk
    obtain ⟨k, rfl⟩ : ∃ m, k = m + 1 := ⟨k - 1, by omega⟩
    rw [List.flatMap_cons, disassembleUpTo_of_decodeBlock (decodeBlock_encode hwf hspace _),
      ih hrest k (by omega)]

/-- Settles O7, by induction on the blocks. -/
theorem disassembleOfAssembled : Obligations.DisassembleOfAssembled := by
  unfold Obligations.DisassembleOfAssembled
  exact fun is his => disassembleUpTo_flatMap_encode is his _ (Nat.le_refl _)

/-! ### The chunks of a literal run (R88, R142) -/

theorem lits_getElem? {run : List Byte} {j : Nat} (hj : j < (run.length + 31) / 32) :
    (lits run)[j]? = some (.lit (memRead run (32 * j) (min 32 (run.length - 32 * j)))) := by
  induction j generalizing run with
  | zero =>
    have hrun : run ≠ [] := by rintro rfl; simp at hj
    rw [lits_of_ne_nil hrun]
    simp [memRead, ← List.take_eq_take_min]
  | succ j ih =>
    have hrun : run ≠ [] := by rintro rfl; simp at hj
    rw [chunkCount_of_ne_nil hrun] at hj
    have hstart : 32 + 32 * j = 32 * (j + 1) := by omega
    rw [lits_of_ne_nil hrun, List.getElem?_cons_succ, ih (by omega)]
    simp only [memRead, List.drop_drop, List.length_drop, Nat.sub_sub, hstart]

theorem wf_of_mem_lits {run : List Byte} {i : Instr} (hi : i ∈ lits run) : i.wf = true := by
  induction run using chunk_induction with
  | nil => simp at hi
  | chunk run hrun ih =>
    rw [lits_of_ne_nil hrun, List.mem_cons] at hi
    obtain rfl | hi := hi
    · exact wf_lit_take hrun
    · exact ih hi

/-- Settles O8: each clause is an induction over the chunks of the run. -/
theorem flushEmitsFullChunks : Obligations.FlushEmitsFullChunks := by
  unfold Obligations.FlushEmitsFullChunks
  intro run
  exact ⟨_, flush_eq run, rfl, lits_length run, fun _ => wf_of_mem_lits, encode_lits_length run,
    fun _ => lits_getElem?⟩

/-! ### Words and operation codes written out (R72 to R74, R86) -/

/-- Settles O1, by evaluation of the decoders on the six words. -/
theorem specWordsDecode : Obligations.SpecWordsDecode := by
  unfold Obligations.SpecWordsDecode
  decide

/-- Settles O2, by evaluation on the sixteen codes. -/
theorem operationCodes : Obligations.OperationCodes := by
  unfold Obligations.OperationCodes
  decide

end Sys2Proof

/-! PROOF. One block of the decoder (43_block_decoder.md R170 to R178): what a block does to the
output as a function on sequences, `blockResult`, and the machine's block step as that function
under the length of the stream (R177) and the capacity of the sink (60_exceptions.md R232). -/

namespace Sys2Proof.Machine

/-! ### A block as a function of the output (R172 to R176) -/

/-- A reference (R175, R176): a distance beyond what has been produced is `E_BACKREF`, else the
copy. -/
def refResult (length distance : Nat) (out : List Byte) : Except Cause (List Byte) :=
  if out.length < distance then .error .eBackref else .ok (copied out length distance)

/-- What a block makes of the output so far; an operation code is no block. -/
def blockResult (i : Instr) (out : List Byte) : Except Cause (List Byte) :=
  match i with
  | .lit data => .ok (out ++ data)
  | .ref lf dhi dlo => refResult (refLength lf) (refDistance dhi dlo) out
  | .refx dhi c dlo => refResult (refxLength c) (refDistance dhi dlo) out
  | .ser | .des | .wmatch | .emitl | .emitr | .comp | .decomp | .encraw | .decraw =>
    .error .eBadOp

/-- `L` after a block (10_state.md R24, notes/assumptions/6.md). -/
def blockL (i : Instr) : BitVec 9 :=
  match i with
  | .ref lf _ _ => BitVec.ofNat 9 (refLength lf)
  | .refx _ c _ => BitVec.ofNat 9 (refxLength c)
  | _ => 0

/-- `D` after a block (10_state.md R24, notes/assumptions/6.md). -/
def blockD (i : Instr) : BitVec 14 :=
  match i with
  | .lit data => BitVec.ofNat 14 (data.length - 1)
  | .ref _ dhi dlo => BitVec.ofNat 14 (refDistance dhi dlo)
  | .refx dhi _ dlo => BitVec.ofNat 14 (refDistance dhi dlo)
  | _ => 0

/-- The state behind a block that made `out` of the output. -/
def State.afterBlock (i : Instr) (out : List Byte) (s : State) : State :=
  { s.setSink s.sink out with rp := s.rp + i.size, lReg := blockL i, dReg := blockD i }

variable {i : Instr} {s : State} {length distance : Nat} {out o : List Byte}

theorem refResult_of_le (h : distance ≤ out.length) :
    refResult length distance out = .ok (copied out length distance) :=
  if_neg (Nat.not_lt.mpr h)

theorem refResult_of_lt (h : out.length < distance) :
    refResult length distance out = .error .eBackref := if_pos h

/-! ### The operands of a reference as numbers (R76) -/

theorem refDistance_eq (dhi : BitVec 5) (dlo : Byte) :
    refDistance dhi dlo = dhi.toNat * 256 + dlo.toNat + 1 := by
  rw [refDistance, ← Nat.shiftLeft_add_eq_or_of_lt dlo.isLt, Nat.shiftLeft_eq]

theorem refDistance_range (dhi : BitVec 5) (dlo : Byte) :
    1 ≤ refDistance dhi dlo ∧ refDistance dhi dlo ≤ 8192 := by
  have hhi := dhi.isLt
  have hlo := dlo.isLt
  rw [refDistance_eq]
  omega

/-- A reference block with given numbers: its result, its fields and the ranges of both operands. -/
theorem refWith_facts (h : RefWith i length distance = true) :
    i.space = .stream ∧ (2 ≤ length ∧ length ≤ 264) ∧ (1 ≤ distance ∧ distance ≤ 8192) ∧
      (∀ out, blockResult i out = refResult length distance out) ∧
      blockL i = BitVec.ofNat 9 length ∧ blockD i = BitVec.ofNat 14 distance := by
  cases i with
  | ref lf dhi dlo =>
    simp only [RefWith, Bool.and_eq_true, decide_eq_true_eq, ← refDistance_eq] at h
    obtain ⟨rfl, rfl⟩ := h
    have hlf := lf.isLt
    exact ⟨rfl, by omega, refDistance_range dhi dlo, fun _ => rfl, rfl, rfl⟩
  | refx dhi c dlo =>
    simp only [RefWith, Bool.and_eq_true, decide_eq_true_eq, ← refDistance_eq] at h
    obtain ⟨rfl, rfl⟩ := h
    have hc := c.isLt
    have hlen : refxLength c = c.toNat + 9 := by rw [refxLength]; omega
    refine ⟨rfl, by omega, refDistance_range dhi dlo, fun out => ?_, ?_, rfl⟩
    · rw [blockResult, hlen]
    · rw [blockL, hlen]
  | _ => simp [RefWith] at h

theorem refWith_ref (lf : BitVec 3) (dhi : BitVec 5) (dlo : Byte) :
    RefWith (.ref lf dhi dlo) (refLength lf) (refDistance dhi dlo) = true := by
  simp [RefWith, refLength, refDistance_eq]

theorem refWith_refx (dhi : BitVec 5) (c dlo : Byte) :
    RefWith (.refx dhi c dlo) (refxLength c) (refDistance dhi dlo) = true := by
  simp [RefWith, refxLength, refDistance_eq]
  omega

/-! ### The copy under a capacity (R175, R232) -/

/-- A copy of at least one byte appends the whole result exactly when that fits; a copy of none
needs a sink within its capacity. -/
theorem copyBack_eq {k : Sink} (h1 : 1 ≤ distance) (n : Nat)
    (hs : 0 < n ∨ fits (s.sinkCap k) (s.sinkBuf k).length = true)
    (hle : distance ≤ (s.sinkBuf k).length) :
    copyBack k distance n s =
      if fits (s.sinkCap k) ((s.sinkBuf k).length + n) then
        .ok (s.setSink k (copied (s.sinkBuf k) n distance))
      else .error .eCapacity := by
  induction n generalizing s with
  | zero => simpa [copyBack, copied] using hs
  | succ n ih =>
    have hread : (memRead (s.sinkBuf k) ((s.sinkBuf k).length - distance) 1).length = 1 :=
      memRead_length _ _ _ (by omega)
    by_cases hone : fits (s.sinkCap k) ((s.sinkBuf k).length + 1) = true
    · rw [copyBack, push_ok_iff.mpr ⟨by rwa [hread], rfl⟩]
      simp only
      rw [ih (by simpa [hread] using .inr hone) (by simp; omega)]
      simp [hread, copied, Nat.add_assoc, Nat.add_comm 1]
    · have hall : ¬ fits (s.sinkCap k) ((s.sinkBuf k).length + (n + 1)) = true :=
        fun h => hone (fits_mono h (by omega))
      rw [copyBack, push_error_iff.mpr ⟨by simpa [hread] using hone, rfl⟩, if_neg hall]

/-! ### The body of a block -/

/-- The body that `runBlockAt` runs for a block. -/
def blockBody (i : Instr) (s : State) : Except Cause State :=
  match i with
  | .lit data =>
    State.push s.sink data { s with lReg := 0, dReg := BitVec.ofNat 14 (data.length - 1) }
  | .ref lf dhi dlo => refBody s.sink (refLength lf) (refDistance dhi dlo) s
  | .refx dhi c dlo => refBody s.sink (refxLength c) (refDistance dhi dlo) s
  | .ser | .des | .wmatch | .emitl | .emitr | .comp | .decomp | .encraw | .decraw =>
    .error .eBadOp

theorem blockEffect_eq_runBlockAt (hspace : i.space = .stream) (s : State) :
    blockEffect i s = runBlockAt i.size (blockBody i) s := by
  cases i with
  | lit data => rfl
  | ref lf dhi dlo => rfl
  | refx dhi c dlo => rfl
  | _ => simp [Instr.space] at hspace

theorem exec_block (hspace : i.space = .stream) (s : State) :
    exec i s = .next (blockEffect i s) := by
  cases i with
  | lit data => rfl
  | ref lf dhi dlo => rfl
  | refx dhi c dlo => rfl
  | _ => simp [Instr.space] at hspace

theorem blockBody_of_refWith (h : RefWith i length distance = true) (s : State) :
    blockBody i s = refBody s.sink length distance s := by
  cases i with
  | ref lf dhi dlo =>
    simp only [RefWith, Bool.and_eq_true, decide_eq_true_eq, ← refDistance_eq] at h
    rw [h.1, h.2]
    rfl
  | refx dhi c dlo =>
    simp only [RefWith, Bool.and_eq_true, decide_eq_true_eq, ← refDistance_eq] at h
    have hlen : refxLength c = c.toNat + 9 := by rw [refxLength]; omega
    rw [h.1, h.2, ← hlen]
    rfl
  | _ => simp [RefWith] at h

theorem refBody_of_lt {k : Sink} (h : (s.sinkBuf k).length < distance) :
    refBody k length distance s = .error .eBackref := if_pos h

theorem refBody_of_le {k : Sink} (h1 : 1 ≤ distance) (hle : distance ≤ (s.sinkBuf k).length)
    (hlen : 0 < length) :
    refBody k length distance s =
      if fits (s.sinkCap k) ((s.sinkBuf k).length + length) then
        .ok { s.setSink k (copied (s.sinkBuf k) length distance) with
          lReg := BitVec.ofNat 9 length, dReg := BitVec.ofNat 14 distance }
      else .error .eCapacity := by
  have hcopy := copyBack_eq h1 (k := k) length (.inl hlen) (s := { s with
    lReg := BitVec.ofNat 9 length, dReg := BitVec.ofNat 14 distance }) hle
  refine (if_neg (Nat.not_lt.mpr hle)).trans (hcopy.trans ?_)
  cases k <;> rfl

theorem size_pos (i : Instr) : 0 < i.size := by
  cases i <;> simp [Instr.size]

/-- A block is a literal or a reference with its numbers. -/
theorem lit_or_refWith (hspace : i.space = .stream) :
    (∃ data, i = .lit data) ∨ ∃ length distance, RefWith i length distance = true := by
  cases i with
  | lit data => exact .inl ⟨data, rfl⟩
  | ref lf dhi dlo => exact .inr ⟨_, _, refWith_ref lf dhi dlo⟩
  | refx dhi c dlo => exact .inr ⟨_, _, refWith_refx dhi c dlo⟩
  | _ => simp [Instr.space] at hspace

/-- The only error of a block's own is `E_BACKREF` (R176). -/
theorem blockResult_error {e : Cause} (hspace : i.space = .stream)
    (h : blockResult i out = .error e) : e = .eBackref := by
  obtain ⟨data, rfl⟩ | ⟨length, distance, hwith⟩ := lit_or_refWith hspace
  · cases h
  · obtain ⟨-, -, -, hresult, -, -⟩ := refWith_facts hwith
    rw [hresult, refResult] at h
    split at h <;> cases h
    rfl

theorem blockBody_of_error {e : Cause} (hspace : i.space = .stream)
    (h : blockResult i (s.sinkBuf s.sink) = .error e) : blockBody i s = .error e := by
  obtain ⟨data, rfl⟩ | ⟨length, distance, hwith⟩ := lit_or_refWith hspace
  · cases h
  · obtain ⟨-, -, -, hresult, -, -⟩ := refWith_facts hwith
    rw [hresult, refResult] at h
    split at h
    next hlt =>
      cases h
      exact (blockBody_of_refWith hwith s).trans (refBody_of_lt hlt)
    next => cases h

/-- The body of a block that is in range: its result if the sink can hold it, else `E_CAPACITY`. -/
theorem blockBody_of_ok (hspace : i.space = .stream)
    (h : blockResult i (s.sinkBuf s.sink) = .ok o) :
    blockBody i s =
      if fits (s.sinkCap s.sink) o.length then
        .ok { s.setSink s.sink o with lReg := blockL i, dReg := blockD i }
      else .error .eCapacity := by
  obtain ⟨data, rfl⟩ | ⟨length, distance, hwith⟩ := lit_or_refWith hspace
  · cases h
    rw [List.length_append]
    cases hk : s.sink <;> simp only [blockBody, hk] <;> rfl
  · obtain ⟨-, ⟨hlen, -⟩, ⟨h1, -⟩, hresult, hl, hd⟩ := refWith_facts hwith
    rw [hresult, refResult] at h
    split at h
    next => cases h
    next hle =>
      cases h
      rw [Nat.not_lt] at hle
      rw [blockBody_of_refWith hwith, refBody_of_le h1 hle (by omega), copied_length h1 hle, hl, hd]

/-! ### The effect of a block -/

theorem runBlockAt_of_lt {size : Nat} {body : State → Except Cause State}
    (h : s.inLen - s.rp < size) : runBlockAt size body s = s.raise .eTrunc s.rp := if_pos h

theorem runBlockAt_of_error {size : Nat} {body : State → Except Cause State} {e : Cause}
    (h : size ≤ s.inLen - s.rp) (hbody : body s = .error e) :
    runBlockAt size body s = s.raise e (if e.hasPos then s.rp else 0) := by
  rw [runBlockAt, if_neg (Nat.not_lt.mpr h), hbody]

theorem runBlockAt_of_ok {size : Nat} {body : State → Except Cause State} {t : State}
    (h : size ≤ s.inLen - s.rp) (hbody : body s = .ok t) :
    runBlockAt size body s = { t with rp := s.rp + size } := by
  rw [runBlockAt, if_neg (Nat.not_lt.mpr h), hbody]

theorem blockEffect_truncated (hspace : i.space = .stream) (h : s.inLen - s.rp < i.size) :
    blockEffect i s = s.raise .eTrunc s.rp :=
  (blockEffect_eq_runBlockAt hspace s).trans (runBlockAt_of_lt h)

theorem blockEffect_backref {e : Cause} (hspace : i.space = .stream) (h : i.size ≤ s.inLen - s.rp)
    (hresult : blockResult i (s.sinkBuf s.sink) = .error e) :
    blockEffect i s = s.raise .eBackref s.rp := by
  obtain rfl := blockResult_error hspace hresult
  exact (blockEffect_eq_runBlockAt hspace s).trans
    (runBlockAt_of_error h (blockBody_of_error hspace hresult))

theorem blockEffect_capacity (hspace : i.space = .stream) (h : i.size ≤ s.inLen - s.rp)
    (hresult : blockResult i (s.sinkBuf s.sink) = .ok o)
    (hfull : fits (s.sinkCap s.sink) o.length = false) :
    blockEffect i s = s.raise .eCapacity 0 :=
  (blockEffect_eq_runBlockAt hspace s).trans
    (runBlockAt_of_error h ((blockBody_of_ok hspace hresult).trans (if_neg (by simp [hfull]))))

theorem blockEffect_ok (hspace : i.space = .stream) (h : i.size ≤ s.inLen - s.rp)
    (hresult : blockResult i (s.sinkBuf s.sink) = .ok o)
    (hfits : fits (s.sinkCap s.sink) o.length = true) :
    blockEffect i s = s.afterBlock i o :=
  (blockEffect_eq_runBlockAt hspace s).trans
    (runBlockAt_of_ok h ((blockBody_of_ok hspace hresult).trans (if_pos hfits)))

/-- Everything a block can do: one of the three errors, or its result behind it. -/
theorem blockEffect_cases (hspace : i.space = .stream) (s : State) :
    (s.inLen - s.rp < i.size ∧ blockEffect i s = s.raise .eTrunc s.rp) ∨
    (i.size ≤ s.inLen - s.rp ∧ blockEffect i s = s.raise .eBackref s.rp) ∨
    (i.size ≤ s.inLen - s.rp ∧ blockEffect i s = s.raise .eCapacity 0) ∨
    ∃ o, i.size ≤ s.inLen - s.rp ∧ fits (s.sinkCap s.sink) o.length = true ∧
      blockEffect i s = s.afterBlock i o := by
  by_cases hlt : s.inLen - s.rp < i.size
  · exact .inl ⟨hlt, blockEffect_truncated hspace hlt⟩
  · have hle : i.size ≤ s.inLen - s.rp := Nat.le_of_not_lt hlt
    cases hresult : blockResult i (s.sinkBuf s.sink) with
    | error e => exact .inr (.inl ⟨hle, blockEffect_backref hspace hle hresult⟩)
    | ok o =>
      cases hfits : fits (s.sinkCap s.sink) o.length with
      | false => exact .inr (.inr (.inl ⟨hle, blockEffect_capacity hspace hle hresult hfits⟩))
      | true => exact .inr (.inr (.inr ⟨o, hle, hfits, blockEffect_ok hspace hle hresult hfits⟩))

/-! ### The rules of the block instructions -/

/-- Settles O18: the header's fields, then the outcomes of a literal. -/
theorem litRule : Obligations.LitRule := by
  unfold Obligations.LitRule
  intro s data
  refine ⟨fun h rest hh hlen => ?_, fun hle hfits => ?_, fun hlt => ?_⟩
  · have hd := headerD_toNat_mod h
    have h0 : headerL h = 0 := headerL_eq_zero_iff.mpr (by omega)
    have hcount : (headerD h).toNat + 1 = data.length := by omega
    rw [decodeBlock_lit h0, hcount]
    simp
  · have hsize : (Instr.lit data).size ≤ s.inLen - s.rp := by simp only [Instr.size]; omega
    exact ⟨_, _, congrArg _ (blockEffect_ok rfl hsize rfl (by rwa [List.length_append]))⟩
  · have hsize : s.inLen - s.rp < (Instr.lit data).size := by simp only [Instr.size]; omega
    exact congrArg _ (blockEffect_truncated rfl hsize)

/-- The headers `0x20 .. 0xDF` (R173). -/
theorem decodeBlock_of_ref_header {h : Byte} (hmin : 0x20 ≤ h.toNat) (hmax : h.toNat ≤ 0xDF)
    (b : Byte) (rest : List Byte) :
    decodeBlock (h :: b :: rest) = .ok (.ref (headerL h) (headerD h) b, rest) :=
  decodeBlock_ref (mt headerL_eq_zero_iff.mp (by omega))
    (mt headerL_eq_seven_iff.mp (by omega)) b rest

/-- Settles O19: the fields of the two kinds of header, then the outcomes of a reference with its
numbers, whose copy is described by `copied`. -/
theorem refRule : Obligations.RefRule := by
  unfold Obligations.RefRule
  refine ⟨fun h b1 rest hmin hmax => ?_, fun h c b2 rest hmin => ?_,
    fun s i length distance hwith => ?_⟩
  · refine ⟨_, _, _, decodeBlock_of_ref_header hmin hmax b1 rest, ?_⟩
    simp only [RefWith, headerL_toNat, headerD_toNat_mod, Nat.shiftRight_eq_div_pow,
      Nat.reducePow, decide_true, Bool.and_self]
  · have hlt := h.isLt
    refine ⟨_, _, _, decodeBlock_refx (headerL_eq_seven_iff.mpr (by omega)) c b2 rest, ?_⟩
    simp only [RefWith, headerD_toNat_mod, Bool.and_eq_true, decide_eq_true_eq, and_true]
    omega
  · obtain ⟨hspace, -, ⟨h1, -⟩, hresult, -, -⟩ := refWith_facts hwith
    rw [exec_block hspace]
    refine ⟨fun hle hdist hfits => ?_, fun hlt => ?_, fun hle hdist => ?_⟩
    · have hcopy := (hresult _).trans (refResult_of_le (length := length) hdist)
      have hlen := copied_length h1 hdist length
      refine ⟨_, _, _, congrArg _ (blockEffect_ok hspace (by omega) hcopy (by rwa [hlen])), hlen,
        fun j hj => copied_getElem?_of_lt hj length, fun j hj => copied_getElem?_add h1 hdist hj⟩
    · have hpos := size_pos i
      exact congrArg _ (blockEffect_truncated hspace (by omega))
    · have hfar := (hresult _).trans (refResult_of_lt (length := length) hdist)
      exact congrArg _ (blockEffect_backref hspace (by omega) hfar)

/-- Settles O21: a literal's and a copy's lengths against the capacity. -/
theorem blockCapacity : Obligations.BlockCapacity := by
  unfold Obligations.BlockCapacity
  refine fun s => ⟨fun data hle hfull => ?_, fun i length distance hwith hle hdist hfull => ?_⟩
  · have hsize : (Instr.lit data).size ≤ s.inLen - s.rp := by simp only [Instr.size]; omega
    exact congrArg _ (blockEffect_capacity rfl hsize rfl (by rwa [List.length_append]))
  · obtain ⟨hspace, -, ⟨h1, -⟩, hresult, -, -⟩ := refWith_facts hwith
    have hcopy := (hresult _).trans (refResult_of_le (length := length) hdist)
    rw [exec_block hspace]
    exact congrArg _
      (blockEffect_capacity hspace (by omega) hcopy (by rwa [copied_length h1 hdist]))

theorem blockEffect_of_st_busy (hspace : i.space = .stream) (hst : (blockEffect i s).st = .busy) :
    ∃ o, blockEffect i s = s.afterBlock i o := by
  obtain ⟨-, h⟩ | ⟨-, h⟩ | ⟨-, h⟩ | ⟨o, -, -, h⟩ := blockEffect_cases hspace s
  iterate 3
    rw [h, State.raise_st] at hst
    cases hst
  exact ⟨o, h⟩

/-- Settles O22: a block that did not fail left the state `afterBlock`, whose fields are numbers in
range. -/
theorem fieldsGrowToOperands : Obligations.FieldsGrowToOperands := by
  unfold Obligations.FieldsGrowToOperands
  intro s t i hwf hexec hst hbusy
  have hafter : i.space = .stream → ∃ o, t = s.afterBlock i o := fun hspace => by
    rw [exec_block hspace] at hexec
    cases hexec
    exact blockEffect_of_st_busy hspace (hst.trans hbusy)
  refine ⟨fun data hi => ?_, fun length distance hwith => ?_⟩
  · subst hi
    obtain ⟨o, rfl⟩ := hafter rfl
    obtain ⟨-, hmax⟩ := wf_lit_iff.mp hwf
    refine ⟨rfl, (BitVec.toNat_ofNat _ _).trans ?_⟩
    omega
  · obtain ⟨hspace, ⟨-, hlen⟩, ⟨-, hdist⟩, -, hl, hd⟩ := refWith_facts hwith
    obtain ⟨o, rfl⟩ := hafter hspace
    simp only [State.afterBlock, hl, hd, BitVec.toNat_ofNat]
    omega

/-! ### One step of the read loop (R170, R171, R177, R178) -/

theorem size_add_length_of_decodeBlock {bs rest : List Byte} (h : decodeBlock bs = .ok (i, rest)) :
    i.size + rest.length = bs.length := by
  obtain ⟨-, -, henc⟩ := encode_of_decodeBlock h
  rw [← henc, List.length_append, encode_length]

/-- A block of the stream lies inside it. -/
theorem add_size_le_length {stream rest : List Byte} {rp : Nat}
    (hdec : decodeBlock (stream.drop rp) = .ok (i, rest)) :
    2 ≤ i.size ∧ rp + i.size ≤ stream.length := by
  obtain ⟨hwf, hspace, -⟩ := encode_of_decodeBlock hdec
  have hsize := two_le_size hwf hspace
  have hlen := size_add_length_of_decodeBlock hdec
  rw [List.length_drop] at hlen
  omega

theorem size_range_of_decodeBlock {rest : List Byte}
    (h : decodeBlock (s.mem.inp.drop s.rp) = .ok (i, rest)) :
    2 ≤ i.size ∧ i.size ≤ s.inLen - s.rp := by
  have hle := add_size_le_length h
  rw [State.inLen]
  omega

theorem decStep_of_decodeBlock {rest : List Byte} (k : Sink)
    (h : decodeBlock (s.mem.inp.drop s.rp) = .ok (i, rest)) : decStep k s = blockEffect i s := by
  have hlt := size_range_of_decodeBlock h
  exact (if_pos (by omega)).trans (by rw [h])

theorem decStep_of_error {e : DecodeError} (k : Sink) (hrp : s.rp < s.inLen)
    (h : decodeBlock (s.mem.inp.drop s.rp) = .error e) : decStep k s = s.raise .eTrunc s.rp :=
  (if_pos hrp).trans (by rw [h])

theorem decStep_out_of_end (hrp : s.inLen ≤ s.rp) : decStep .out s = s.finish :=
  if_neg (Nat.not_lt.mpr hrp)

theorem decStep_mid_of_end (hrp : s.inLen ≤ s.rp) : decStep .mid s = { s with seq := .des } :=
  if_neg (Nat.not_lt.mpr hrp)

theorem microStep_dec {k : Sink} (hseq : s.seq = .dec k) : microStep s = decStep k s := by
  rw [microStep, hseq]

/-- Inside a step machine a step is `microStep`, beside a read of the host (R263). -/
theorem step_micro (hr : NoResetNext s) (hb : s.st = .busy) (hseq : s.seq ≠ .op) :
    step s = .next (microStep s.passRead) := by
  rw [step_busy hr hb, busyStep_micro (by rwa [State.passRead_seq])]

theorem step_dec {k : Sink} (hr : NoResetNext s) (hb : s.st = .busy) (hseq : s.seq = .dec k) :
    step s = .next (decStep k s.passRead) := by
  rw [step_micro hr hb (by simp [hseq]), microStep_dec (by rwa [State.passRead_seq])]

/-- Settles O15: a step of the read loop is the block's effect, which is `exec` of the block. -/
theorem stepRunsBlock : Obligations.StepRunsBlock := by
  unfold Obligations.StepRunsBlock
  intro s k i rest hr hb hseq _ hdec
  obtain ⟨-, hspace, -⟩ := encode_of_decodeBlock hdec
  rw [step_dec hr hb hseq, exec_block hspace,
    decStep_of_decodeBlock k (by rwa [State.passRead_mem, State.passRead_rp])]

/-- Settles O16: the stream decoder refuses a block longer than the rest of the stream. -/
theorem stepTruncatedBlock : Obligations.StepTruncatedBlock := by
  unfold Obligations.StepTruncatedBlock
  intro s k hr hb hseq hrp hshort
  obtain ⟨h, hh⟩ : ∃ h, s.mem.inp[s.rp]? = some h := ⟨_, List.getElem?_eq_getElem hrp⟩
  have hdrop : s.mem.inp.drop s.rp = h :: s.mem.inp.drop (s.rp + 1) := by
    have hget : h = s.mem.inp[s.rp] :=
      Option.some.inj (hh.symm.trans (List.getElem?_eq_getElem hrp))
    rw [List.drop_eq_getElem_cons hrp, hget]
  have htrunc : decodeBlock (s.mem.inp.drop s.rp) = .error .truncated := by
    rw [hdrop]
    have hsize := hshort h hh
    rw [State.inLen] at hrp hsize
    exact decodeBlock_of_lt_blockSize (by rw [List.length_drop]; omega)
  rw [step_dec hr hb hseq, decStep_of_error k (s := s.passRead) (by simpa [State.inLen] using hrp)
    (by rwa [State.passRead_mem, State.passRead_rp]), State.passRead_rp]

/-- Settles O17: no byte is left, so the loop ends as its sink asks. -/
theorem stepEndOfStream : Obligations.StepEndOfStream := by
  unfold Obligations.StepEndOfStream
  intro s hr hb hrp
  have hend : s.passRead.inLen ≤ s.passRead.rp := by simp [State.inLen, hrp]
  exact ⟨fun hseq => (step_dec hr hb hseq).trans (congrArg _ (decStep_out_of_end hend)),
    fun hseq => (step_dec hr hb hseq).trans (congrArg _ (decStep_mid_of_end hend))⟩

/-- Settles O14: at its operation code a running step fetches, decodes and executes `OP`. -/
theorem stepRunsOperation : Obligations.StepRunsOperation := by
  unfold Obligations.StepRunsOperation
  intro s i hr hb hseq hop
  rw [step_busy hr hb, busyStep]
  simp only [State.passRead_seq, State.passRead_op, hseq, hop]

end Sys2Proof.Machine

/-! PROOF. The block decoder's operation (43_block_decoder.md R170, R178 to R183). `Decodes` says
that whole blocks of a stream lead from one configuration of R183 to another. The result function,
the machine's read loop and the encoder's proofs all meet in it: the result function follows it to
the end of the stream or to the first failing block, and the machine follows it under its capacity.
-/

namespace Sys2Proof.Machine

/-- Blocks of `stream`, one after another, lead from read index and output to read index and output
(the step table of R183). -/
inductive Decodes (stream : List Byte) : Nat → List Byte → Nat → List Byte → Prop
  | refl (rp : Nat) (out : List Byte) : Decodes stream rp out rp out
  | block {rp rp' : Nat} {out mid out' rest : List Byte} {i : Instr}
      (hdec : decodeBlock (stream.drop rp) = .ok (i, rest)) (hresult : blockResult i out = .ok mid)
      (hrest : Decodes stream (rp + i.size) mid rp' out') : Decodes stream rp out rp' out'

/-- The block at index `p` of a stream fails on the output so far, with its cause (R176, R177). -/
inductive BlockFails (stream : List Byte) (p : Nat) (out : List Byte) : Cause → Prop
  | truncated {e : DecodeError} (hp : p < stream.length)
      (hdec : decodeBlock (stream.drop p) = .error e) : BlockFails stream p out .eTrunc
  | backref {i : Instr} {rest : List Byte} (hdec : decodeBlock (stream.drop p) = .ok (i, rest))
      (hresult : blockResult i out = .error .eBackref) : BlockFails stream p out .eBackref

variable {stream out out' o rest : List Byte} {rp rp' p : Nat} {i : Instr} {e : Cause}

/-! ### The result function block by block (R183) -/

theorem headerL_nat_eq_zero {h : Byte} (h0 : headerL h = 0) : (headerL h).toNat = 0 := by
  rw [h0]; rfl

theorem headerL_nat_ne_zero {h : Byte} (h0 : headerL h ≠ 0) : ¬ (headerL h).toNat = 0 :=
  fun hn => h0 (BitVec.eq_of_toNat_eq hn)

theorem headerL_nat_le_six {h : Byte} (h7 : headerL h ≠ 7) : (headerL h).toNat ≤ 6 := by
  have hlt := (headerL h).isLt
  have hne : (headerL h).toNat ≠ 7 := fun hn => h7 (BitVec.eq_of_toNat_eq hn)
  omega

/-- A header that asks for more bytes than there are fails at its index (R177). -/
theorem decompFrom_of_truncated {err : DecodeError} (hrp : rp < stream.length)
    (hdec : decodeBlock (stream.drop rp) = .error err) (k : Nat) (out : List Byte) :
    decompFrom stream (k + 1) rp out = .error (.eTrunc, rp) := by
  rw [List.drop_eq_getElem_cons hrp] at hdec
  rw [decompFrom, List.drop_eq_getElem_cons hrp]
  simp only [← headerL_toNat, ← headerD_toNat]
  by_cases h0 : headerL stream[rp] = 0
  · rw [decodeBlock_lit h0] at hdec
    split at hdec
    next hshort => rw [if_pos (headerL_nat_eq_zero h0), if_pos hshort]
    next => cases hdec
  · rw [if_neg (headerL_nat_ne_zero h0)]
    generalize stream.drop (rp + 1) = t at hdec
    by_cases h7 : headerL stream[rp] = 7
    · match t with
      | [] | [_] => rw [h7]; rfl
      | c :: b :: t' => rw [decodeBlock_refx h7] at hdec; cases hdec
    · rw [if_pos (headerL_nat_le_six h7)]
      match t with
      | [] => rfl
      | b :: t' => rw [decodeBlock_ref h0 h7] at hdec; cases hdec

/-- What the result function does with the result of a block. -/
def continueWith (stream : List Byte) (k rp : Nat) (i : Instr) (r : Except Cause (List Byte)) :
    Except (Cause × Nat) (List Byte) :=
  match r with
  | .error e => .error (e, rp)
  | .ok o => decompFrom stream k (rp + i.size) o

theorem continueWith_refResult (stream : List Byte) (k rp : Nat) (i : Instr)
    (length distance : Nat) (out : List Byte) :
    continueWith stream k rp i (refResult length distance out) =
      if out.length < distance then .error (.eBackref, rp)
      else decompFrom stream k (rp + i.size) (copied out length distance) := by
  rw [refResult]
  split <;> rfl

/-- The result function, which reads the fields as numbers, agrees with the stream decoder. -/
theorem decompFrom_of_decodeBlock (hdec : decodeBlock (stream.drop rp) = .ok (i, rest)) (k : Nat)
    (out : List Byte) :
    decompFrom stream (k + 1) rp out = continueWith stream k rp i (blockResult i out) := by
  have hrp : rp < stream.length := by
    by_contra hge
    rw [List.drop_eq_nil_of_le (Nat.le_of_not_lt hge)] at hdec
    cases hdec
  rw [List.drop_eq_getElem_cons hrp] at hdec
  rw [decompFrom, List.drop_eq_getElem_cons hrp]
  simp only [← headerL_toNat, ← headerD_toNat]
  by_cases h0 : headerL stream[rp] = 0
  · rw [decodeBlock_lit h0] at hdec
    split at hdec
    next => cases hdec
    next hlong =>
      cases hdec
      have hsize :
          rp + (Instr.lit ((stream.drop (rp + 1)).take ((headerD stream[rp]).toNat + 1))).size =
          rp + 1 + ((headerD stream[rp]).toNat + 1) := by
        simp only [Instr.size, List.length_take]
        omega
      rw [if_pos (headerL_nat_eq_zero h0), if_neg hlong, blockResult, continueWith, hsize]
  · rw [if_neg (headerL_nat_ne_zero h0)]
    generalize stream.drop (rp + 1) = t at hdec
    by_cases h7 : headerL stream[rp] = 7
    · match t with
      | c :: b :: t' =>
        rw [decodeBlock_refx h7] at hdec
        cases hdec
        have hlen : refxLength c = c.toNat + 9 := by rw [refxLength]; omega
        rw [blockResult, continueWith_refResult, h7, hlen]
        rfl
      | [] | [_] => simp [decodeBlock, h7] at hdec
    · rw [if_pos (headerL_nat_le_six h7)]
      match t with
      | b :: t' =>
        rw [decodeBlock_ref h0 h7] at hdec
        cases hdec
        rw [blockResult, continueWith_refResult]
        rfl
      | [] =>
        have htrunc : decodeBlock [stream[rp]] = .error .truncated := (if_neg h0).trans (if_neg h7)
        rw [htrunc] at hdec
        cases hdec

theorem decompFrom_of_block (hdec : decodeBlock (stream.drop rp) = .ok (i, rest))
    (hresult : blockResult i out = .ok o) (k : Nat) :
    decompFrom stream (k + 1) rp out = decompFrom stream k (rp + i.size) o := by
  rw [decompFrom_of_decodeBlock hdec, hresult, continueWith]

theorem decompFrom_of_backref (hdec : decodeBlock (stream.drop rp) = .ok (i, rest))
    (hresult : blockResult i out = .error e) (k : Nat) :
    decompFrom stream (k + 1) rp out = .error (e, rp) := by
  rw [decompFrom_of_decodeBlock hdec, hresult, continueWith]

/-! ### What a sequence of blocks keeps -/

theorem refResult_ok_length {length distance : Nat} (h1 : 1 ≤ distance)
    (h : refResult length distance out = .ok o) : o.length = out.length + length := by
  rw [refResult] at h
  split at h
  next => cases h
  next hle =>
    cases h
    exact copied_length h1 (Nat.le_of_not_lt hle) length

/-- A block only appends, at most 88 bytes for each of its own (R181). -/
theorem blockResult_length (h : blockResult i out = .ok o) :
    out.length ≤ o.length ∧ o.length ≤ out.length + 88 * i.size := by
  cases i with
  | lit data =>
    cases h
    simp only [List.length_append, Instr.size]
    omega
  | ref lf dhi dlo =>
    have hlen := refResult_ok_length (refDistance_range dhi dlo).1 h
    have hlf := lf.isLt
    simp only [refLength, Instr.size] at hlen ⊢
    omega
  | refx dhi c dlo =>
    have hlen := refResult_ok_length (refDistance_range dhi dlo).1 h
    have hc := c.isLt
    simp only [refxLength, Instr.size] at hlen ⊢
    omega
  | _ => cases h

theorem Decodes.le (h : Decodes stream rp out rp' out') :
    rp ≤ rp' ∧ out.length ≤ out'.length ∧ out'.length ≤ out.length + 88 * (rp' - rp) := by
  induction h with
  | refl => omega
  | block hdec hresult _ ih =>
    have hlen := blockResult_length hresult
    omega

theorem Decodes.trans {p' : Nat} (h : Decodes stream rp out rp' out')
    (h' : Decodes stream rp' out' p' o) : Decodes stream rp out p' o := by
  induction h with
  | refl => exact h'
  | block hdec hresult _ ih => exact .block hdec hresult (ih h')

theorem Decodes.of_block (hdec : decodeBlock (stream.drop rp) = .ok (i, rest))
    (hresult : blockResult i out = .ok o) : Decodes stream rp out (rp + i.size) o :=
  .block hdec hresult (.refl _ _)

/-- Cutting the stream behind a block leaves the block. -/
theorem decodeBlock_take (hdec : decodeBlock (stream.drop rp) = .ok (i, rest))
    (hp : rp + i.size ≤ p) :
    ∃ rest', decodeBlock ((stream.take p).drop rp) = .ok (i, rest') := by
  obtain ⟨hwf, hspace, henc⟩ := encode_of_decodeBlock hdec
  refine ⟨rest.take (p - rp - i.size), ?_⟩
  rw [List.drop_take, ← henc, List.take_append, encode_length, List.take_of_length_le,
    decodeBlock_encode hwf hspace]
  rw [encode_length]
  omega

/-- Cutting the stream behind the last block of a sequence leaves the sequence. -/
theorem Decodes.take (h : Decodes stream rp out p o) : Decodes (stream.take p) rp out p o := by
  induction h with
  | refl => exact .refl _ _
  | block hdec hresult hrest ih =>
    obtain ⟨hle, -⟩ := hrest.le
    obtain ⟨_, hdec'⟩ := decodeBlock_take hdec hle
    exact .block hdec' hresult ih

/-! ### The result function along a sequence of blocks -/

/-- With a block of the bound for each byte left, the result function follows the blocks. -/
theorem Decodes.decompFrom_eq (h : Decodes stream rp out rp' out') (k : Nat)
    (hk : stream.length - rp ≤ k) :
    ∃ k', stream.length - rp' ≤ k' ∧
      decompFrom stream k rp out = decompFrom stream k' rp' out' := by
  induction h generalizing k with
  | refl => exact ⟨k, hk, rfl⟩
  | block hdec hresult _ ih =>
    obtain ⟨hsize, hle⟩ := add_size_le_length hdec
    obtain ⟨k, rfl⟩ : ∃ m, k = m + 1 := ⟨k - 1, by omega⟩
    rw [decompFrom_of_block hdec hresult]
    exact ih k (by omega)

theorem Decodes.decomp_eq (h : Decodes stream 0 [] stream.length o) : decomp stream = .ok o := by
  obtain ⟨k, -, hk⟩ := h.decompFrom_eq stream.length (Nat.sub_le _ _)
  rw [decomp, hk]
  exact decompFrom_of_drop_eq_nil (List.drop_length) k o

/-- The result function reads blocks to the end of the stream, or to the first that fails. -/
theorem decompFrom_cases (k : Nat) (hk : stream.length - rp ≤ k) (hrp : rp ≤ stream.length)
    (out : List Byte) :
    (∃ o, decompFrom stream k rp out = .ok o ∧ Decodes stream rp out stream.length o) ∨
    ∃ e p o, decompFrom stream k rp out = .error (e, p) ∧ Decodes stream rp out p o ∧
      BlockFails stream p o e := by
  induction k generalizing rp out with
  | zero =>
    obtain rfl : rp = stream.length := by omega
    exact .inl ⟨out, rfl, .refl _ _⟩
  | succ k ih =>
    obtain rfl | hlt := Nat.eq_or_lt_of_le hrp
    · exact .inl ⟨out, decompFrom_of_drop_eq_nil List.drop_length _ _, .refl _ _⟩
    cases hdec : decodeBlock (stream.drop rp) with
    | error err =>
      exact .inr ⟨_, _, _, decompFrom_of_truncated hlt hdec k out, .refl _ _, .truncated hlt hdec⟩
    | ok r =>
      obtain ⟨i, rest⟩ := r
      obtain ⟨-, hspace, -⟩ := encode_of_decodeBlock hdec
      cases hresult : blockResult i out with
      | error e =>
        obtain rfl := blockResult_error hspace hresult
        exact .inr ⟨_, _, _, decompFrom_of_backref hdec hresult k, .refl _ _, .backref hdec hresult⟩
      | ok mid =>
        obtain ⟨hsize, hle⟩ := add_size_le_length hdec
        rw [decompFrom_of_block hdec hresult]
        obtain ⟨o, ho, hdecodes⟩ | ⟨e, p, o, he, hdecodes, hfails⟩ := ih (by omega) hle mid
        · exact .inl ⟨o, ho, .block hdec hresult hdecodes⟩
        · exact .inr ⟨e, p, o, he, .block hdec hresult hdecodes, hfails⟩

theorem decomp_cases (stream : List Byte) :
    (∃ o, decomp stream = .ok o ∧ Decodes stream 0 [] stream.length o) ∨
    ∃ e p o, decomp stream = .error (e, p) ∧ Decodes stream 0 [] p o ∧ BlockFails stream p o e :=
  decompFrom_cases stream.length (Nat.sub_le _ _) (Nat.zero_le _) []

theorem decodes_of_decomp_ok (h : decomp stream = .ok o) :
    Decodes stream 0 [] stream.length o := by
  obtain ⟨o', ho, hdecodes⟩ | ⟨_, _, _, he, -⟩ := decomp_cases stream
  · cases h.symm.trans ho
    exact hdecodes
  · cases h.symm.trans he

theorem decodes_of_decomp_error (h : decomp stream = .error (e, p)) :
    ∃ before, Decodes stream 0 [] p before ∧ BlockFails stream p before e := by
  obtain ⟨_, ho, -⟩ | ⟨_, _, before, he, hdecodes, hfails⟩ := decomp_cases stream
  · cases h.symm.trans ho
  · cases h.symm.trans he
    exact ⟨before, hdecodes, hfails⟩

theorem BlockFails.lt_length (h : BlockFails stream p out e) : p < stream.length := by
  cases h with
  | truncated hp _ => exact hp
  | backref hdec _ =>
    have hsize := add_size_le_length hdec
    omega

/-- The blocks before a failing one are what the result function makes of the stream cut there. -/
theorem Decodes.decomp_take (h : Decodes stream 0 [] p o) (hp : p ≤ stream.length) :
    decomp (stream.take p) = .ok o := by
  have hcut := h.take
  have hlen : (stream.take p).length = p := List.length_take_of_le hp
  exact Decodes.decomp_eq (by rwa [hlen])

/-- Settles O38: a decoder that stops early stops at a failing block. -/
theorem decompErrorsAreFormatErrors : Obligations.DecompErrorsAreFormatErrors := by
  unfold Obligations.DecompErrorsAreFormatErrors
  intro c e p h
  obtain ⟨before, -, hfails⟩ := decodes_of_decomp_error h
  refine ⟨?_, ?_, hfails.lt_length⟩
  all_goals cases hfails <;> simp [Cause.kind]

/-- Settles O39: the bound of one block, summed over the blocks. -/
theorem decompOutputBound : Obligations.DecompOutputBound := by
  unfold Obligations.DecompOutputBound
  intro c o h
  obtain ⟨-, -, hlen⟩ := (decodes_of_decomp_ok h).le
  simpa using hlen

/-! ### Runs of the step machines -/

variable {s t : State} {k : Sink}

/-- With a bound of at least `n` steps the run from `s` ends in `t`. -/
def RunsTo (n : Nat) (s t : State) : Prop := ∀ fuel, n ≤ fuel → runBusy fuel s = t

theorem RunsTo.stop (h : s.st ≠ .busy) (n : Nat) : RunsTo n s s :=
  fun fuel _ => runBusy_of_not_busy h fuel

theorem RunsTo.step {n : Nat} (hb : s.st = .busy) (h : RunsTo n (microStep s) t) :
    RunsTo (n + 1) s t := fun fuel hfuel => by
  obtain ⟨fuel, rfl⟩ : ∃ m, fuel = m + 1 := ⟨fuel - 1, by omega⟩
  rw [runBusy_succ hb, h fuel (by omega)]

theorem RunsTo.mono {m n : Nat} (h : RunsTo m s t) (hmn : m ≤ n) : RunsTo n s t :=
  fun fuel hfuel => h fuel (hmn.trans hfuel)

/-- A run ends with a step that ends the operation. -/
theorem RunsTo.last (hb : s.st = .busy) (hstep : microStep s = t) (ht : t.st ≠ .busy) :
    RunsTo 1 s t := .step hb (hstep ▸ .stop ht 0)

/-! ### The read loop of the machine along a sequence of blocks -/

theorem sink_of_seq (hseq : s.seq = .dec k) : s.sink = k := by
  rw [State.sink, hseq]

/-- The state of the read loop behind whole blocks: the output, the read pointer, and what the last
block left in `L` and `D`. -/
def State.behindBlocks (k : Sink) (out : List Byte) (rp : Nat) (l : BitVec 9) (d : BitVec 14)
    (s : State) : State :=
  { s.setSink k out with rp := rp, lReg := l, dReg := d }

theorem behindBlocks_afterBlock (hseq : s.seq = .dec k) (i : Instr) (mid out : List Byte) (rp : Nat)
    (l : BitVec 9) (d : BitVec 14) :
    (s.afterBlock i mid).behindBlocks k out rp l d = s.behindBlocks k out rp l d := by
  rw [State.afterBlock, sink_of_seq hseq]
  cases k <;> rfl

@[simp] theorem afterBlock_st (i : Instr) (out : List Byte) (s : State) :
    (s.afterBlock i out).st = s.st := State.setSink_st ..
@[simp] theorem afterBlock_seq (i : Instr) (out : List Byte) (s : State) :
    (s.afterBlock i out).seq = s.seq := State.setSink_seq ..
@[simp] theorem afterBlock_inp (i : Instr) (out : List Byte) (s : State) :
    (s.afterBlock i out).mem.inp = s.mem.inp := State.setSink_inp ..
@[simp] theorem afterBlock_sinkCap (i : Instr) (out : List Byte) (j : Sink) (s : State) :
    (s.afterBlock i out).sinkCap j = s.sinkCap j := State.setSink_sinkCap ..

theorem afterBlock_sinkBuf (hseq : s.seq = .dec k) (i : Instr) (out : List Byte) :
    (s.afterBlock i out).sinkBuf k = out := by
  rw [State.afterBlock, sink_of_seq hseq]
  exact State.setSink_sinkBuf k out s

theorem behindBlocks_self (k : Sink) (s : State) :
    s.behindBlocks k (s.sinkBuf k) s.rp s.lReg s.dReg = s := by
  cases k <;> rfl

/-- Error entry in the read loop, with what earlier blocks left in the working registers. -/
def State.raiseBehind (e : Cause) (p rp : Nat) (l : BitVec 9) (d : BitVec 14) (s : State) : State :=
  { s.raise e p with rp := rp, lReg := l, dReg := d }

theorem raise_behindBlocks (e : Cause) (p : Nat) (k : Sink) (out : List Byte) (rp : Nat)
    (l : BitVec 9) (d : BitVec 14) (s : State) :
    (s.behindBlocks k out rp l d).raise e p = s.raiseBehind e p rp l d := by
  cases k <;> rfl

theorem raiseBehind_afterBlock (i : Instr) (mid : List Byte) (e : Cause) (p rp : Nat)
    (l : BitVec 9) (d : BitVec 14) :
    (s.afterBlock i mid).raiseBehind e p rp l d = s.raiseBehind e p rp l d := by
  rw [State.afterBlock]
  cases s.sink <;> rfl

/-- In the read loop, at a block that decodes and is in range: behind it, or `E_CAPACITY`. -/
theorem microStep_block (hseq : s.seq = .dec k)
    (hdec : decodeBlock (s.mem.inp.drop s.rp) = .ok (i, rest))
    (hresult : blockResult i (s.sinkBuf k) = .ok o) :
    microStep s =
      if fits (s.sinkCap k) o.length then s.afterBlock i o else s.raise .eCapacity 0 := by
  obtain ⟨-, hspace, -⟩ := encode_of_decodeBlock hdec
  obtain ⟨-, hsize⟩ := size_range_of_decodeBlock hdec
  obtain rfl := sink_of_seq hseq
  rw [microStep_dec hseq, decStep_of_decodeBlock _ hdec]
  split
  next hfits => exact blockEffect_ok hspace hsize hresult hfits
  next hfull => exact blockEffect_capacity hspace hsize hresult (by simpa using hfull)

/-- The machine follows whole blocks as long as their output fits, at most one step for each byte.
-/
theorem runsTo_of_decodes (h : Decodes s.mem.inp rp out rp' out') (hb : s.st = .busy)
    (hseq : s.seq = .dec k) (hrp : s.rp = rp) (hout : s.sinkBuf k = out)
    (hfits : fits (s.sinkCap k) out'.length = true) :
    ∃ l d, ∀ n t, RunsTo n (s.behindBlocks k out' rp' l d) t → RunsTo (rp' - rp + n) s t := by
  generalize hstream : s.mem.inp = stream at h
  induction h generalizing s with
  | refl =>
    subst hrp hout
    refine ⟨s.lReg, s.dReg, fun n t ht => ?_⟩
    rw [behindBlocks_self] at ht
    exact ht.mono (Nat.le_add_left _ _)
  | @block rp rp' out mid out' rest i hdec hresult hrest ih =>
    subst hrp hout hstream
    obtain ⟨hle, hgrow, -⟩ := hrest.le
    obtain ⟨hsize, -⟩ := size_range_of_decodeBlock hdec
    have hstep : microStep s = s.afterBlock i mid :=
      (microStep_block hseq hdec hresult).trans (if_pos (fits_mono hfits hgrow))
    obtain ⟨l, d, hrun⟩ := ih (s := s.afterBlock i mid) (by simpa using hb) (by simpa using hseq)
      rfl (afterBlock_sinkBuf hseq i mid) (by simpa using hfits) (by simp)
    refine ⟨l, d, fun n t ht => ?_⟩
    rw [← behindBlocks_afterBlock hseq i mid] at ht
    exact (RunsTo.step hb (hstep ▸ hrun n t ht)).mono (by omega)

/-- Where the output of whole blocks does not fit, the machine ends in `E_CAPACITY` before their
end. -/
theorem runsTo_of_decodes_full (h : Decodes s.mem.inp rp out rp' out') (hb : s.st = .busy)
    (hseq : s.seq = .dec k) (hrp : s.rp = rp) (hout : s.sinkBuf k = out)
    (hstart : fits (s.sinkCap k) out.length = true)
    (hfull : fits (s.sinkCap k) out'.length = false) :
    ∃ r l d, RunsTo (rp' - rp) s (s.raiseBehind .eCapacity 0 r l d) := by
  generalize hstream : s.mem.inp = stream at h
  induction h generalizing s with
  | refl => simp [hstart] at hfull
  | @block rp rp' out mid out' rest i hdec hresult hrest ih =>
    subst hrp hout hstream
    obtain ⟨hle, -, -⟩ := hrest.le
    obtain ⟨hsize, -⟩ := size_range_of_decodeBlock hdec
    have hstep := microStep_block hseq hdec hresult
    cases hmid : fits (s.sinkCap k) mid.length with
    | false =>
      rw [hmid, if_neg (by simp)] at hstep
      exact ⟨s.rp, s.lReg, s.dReg, (RunsTo.last hb hstep (by simp)).mono (by omega)⟩
    | true =>
      rw [hmid, if_pos rfl] at hstep
      obtain ⟨r, l, d, hrun⟩ := ih (s := s.afterBlock i mid) (by simpa using hb)
        (by simpa using hseq) rfl (afterBlock_sinkBuf hseq i mid) (by simpa using hmid)
        (by simpa using hfull) (by simp)
      rw [raiseBehind_afterBlock] at hrun
      exact ⟨r, l, d, (RunsTo.step hb (hstep ▸ hrun)).mono (by omega)⟩

/-- A block that fails in the result function fails in the machine, at its header. -/
theorem microStep_of_blockFails (hseq : s.seq = .dec k)
    (h : BlockFails s.mem.inp s.rp (s.sinkBuf k) e) : microStep s = s.raise e s.rp := by
  obtain rfl := sink_of_seq hseq
  rw [microStep_dec hseq]
  cases h with
  | truncated hp hdec => exact decStep_of_error _ hp hdec
  | backref hdec hresult =>
    obtain ⟨-, hspace, -⟩ := encode_of_decodeBlock hdec
    obtain ⟨-, hsize⟩ := size_range_of_decodeBlock hdec
    exact (decStep_of_decodeBlock _ hdec).trans (blockEffect_backref hspace hsize hresult)

/-! ### The read loop from the start of the stream with an empty sink (R170, R201) -/

section
variable (hb : s.st = .busy) (hseq : s.seq = .dec k) (hrp : s.rp = 0) (hempty : s.sinkBuf k = [])
include hb hseq hrp hempty

theorem runsTo_dec_of_ok (h : decomp s.mem.inp = .ok o)
    (hfits : fits (s.sinkCap k) o.length = true) :
    ∃ l d, ∀ n t, RunsTo n (s.behindBlocks k o s.inLen l d) t → RunsTo (s.inLen + n) s t :=
  runsTo_of_decodes (decodes_of_decomp_ok h) hb hseq hrp hempty hfits

theorem runsTo_dec_of_full (h : decomp s.mem.inp = .ok o)
    (hfull : fits (s.sinkCap k) o.length = false) :
    ∃ r l d, RunsTo s.inLen s (s.raiseBehind .eCapacity 0 r l d) :=
  runsTo_of_decodes_full (decodes_of_decomp_ok h) hb hseq hrp hempty (fits_zero _) hfull

/-- On a malformed stream the first defect in stream order wins (R234): the capacity while the
blocks before the failing one are delivered, then the failing block. -/
theorem runsTo_dec_of_error (h : decomp s.mem.inp = .error (e, p)) :
    ∃ before, decomp (s.mem.inp.take p) = .ok before ∧
      (fits (s.sinkCap k) before.length = true →
        ∃ l d, RunsTo s.inLen s (s.raiseBehind e p p l d)) ∧
      (fits (s.sinkCap k) before.length = false →
        ∃ r l d, RunsTo s.inLen s (s.raiseBehind .eCapacity 0 r l d)) := by
  obtain ⟨before, hdecodes, hfails⟩ := decodes_of_decomp_error h
  have hp : p < s.inLen := hfails.lt_length
  refine ⟨before, hdecodes.decomp_take hp.le, fun hfits => ?_, fun hfull => ?_⟩
  · obtain ⟨l, d, hrun⟩ := runsTo_of_decodes hdecodes hb hseq hrp hempty hfits
    have hstep : microStep (s.behindBlocks k before p l d) = s.raiseBehind e p p l d :=
      (microStep_of_blockFails (k := k) (by simpa [State.behindBlocks] using hseq)
        (by cases k <;> exact hfails)).trans (raise_behindBlocks ..)
    have hlast := RunsTo.last (by simpa [State.behindBlocks] using hb) hstep
      (by simp [State.raiseBehind])
    exact ⟨l, d, (hrun 1 _ hlast).mono (by omega)⟩
  · obtain ⟨r, l, d, hrun⟩ :=
      runsTo_of_decodes_full hdecodes hb hseq hrp hempty (fits_zero _) hfull
    exact ⟨r, l, d, hrun.mono (by omega)⟩

end

/-- `DECOMP`'s loop at its start. -/
def State.atDecomp (s : State) : State := { s with st := .busy, seq := .dec .out, rp := 0 }

theorem exec_decomp (s : State) : exec .decomp s = .next (runBusy (s.inLen + 1) s.atDecomp) := rfl

theorem exec_decomp_of_runsTo {n : Nat} (h : RunsTo n s.atDecomp t) (hn : n ≤ s.inLen + 1) :
    exec .decomp s = .next t := (exec_decomp s).trans (congrArg _ (h _ hn))

/-- Settles O37: the read loop from the start of the stream; at its end the operation is `DONE`. -/
theorem decompDeliversResult : Obligations.DecompDeliversResult := by
  unfold Obligations.DecompDeliversResult
  intro s hempty
  refine ⟨fun o ho hfits => ?_, fun o ho hfull => ?_, fun e p he => ?_⟩
  · obtain ⟨l, d, hrun⟩ :=
      runsTo_dec_of_ok (s := s.atDecomp) (k := .out) rfl rfl rfl hempty ho hfits
    have hend : microStep (s.atDecomp.behindBlocks .out o s.atDecomp.inLen l d) =
        (s.atDecomp.behindBlocks .out o s.atDecomp.inLen l d).finish :=
      (microStep_dec rfl).trans (decStep_out_of_end (Nat.le_refl _))
    exact ⟨l, d, exec_decomp_of_runsTo (hrun 1 _ (.last rfl hend (by simp))) (Nat.le_refl _)⟩
  · obtain ⟨r, l, d, hrun⟩ :=
      runsTo_dec_of_full (s := s.atDecomp) (k := .out) rfl rfl rfl hempty ho hfull
    exact ⟨r, l, d, exec_decomp_of_runsTo hrun (Nat.le_succ _)⟩
  · obtain ⟨before, hbefore, hfits, hfull⟩ :=
      runsTo_dec_of_error (s := s.atDecomp) (k := .out) rfl rfl rfl hempty he
    refine ⟨before, hbefore, fun h => ?_, fun h => ?_⟩
    · obtain ⟨l, d, hrun⟩ := hfits h
      exact ⟨l, d, exec_decomp_of_runsTo hrun (Nat.le_succ _)⟩
    · obtain ⟨r, l, d, hrun⟩ := hfull h
      exact ⟨r, l, d, exec_decomp_of_runsTo hrun (Nat.le_succ _)⟩

end Sys2Proof.Machine

/-! PROOF. The block encoder (42_block_encoder.md). `Encodes` says which bytes the greedy loop makes
of the input from a cursor on; the result function, the machine's loop, the size bound (R153) and
the round trip (44_codec_chain_and_properties.md R203) are inductions over it. -/

namespace Sys2Proof.Machine

/-! ### The operands of a match (R121, R122) -/

theorem matchAt_some {data : List Byte} {pos len dist : Nat}
    (h : matchAt data pos = some (len, dist)) :
    1 ≤ dist ∧ dist ≤ min pos 8192 ∧ len = matchLength data pos dist ∧
      len ≤ min 264 (data.length - pos) := by
  have hpos : 1 ≤ pos := by
    refine Nat.one_le_iff_ne_zero.mpr fun h0 => ?_
    subst h0
    cases (matchAt_zero data).symm.trans h
  obtain ⟨best, hbest, hnearest⟩ := exists_matchAt_eq_some data hpos
  cases hbest.symm.trans h
  have hlen : len = matchLength data pos dist := hnearest.length_eq
  exact ⟨hnearest.one_le, hnearest.le, hlen, hlen ▸ matchLength_le data pos dist⟩

theorem exec_wmatch_of_le {s : State} (h : s.posReg ≤ s.inLen) :
    exec .wmatch s = .next (s.setMatch (matchAt s.mem.inp s.posReg)).finish :=
  congrArg _ (if_neg (Nat.not_lt.mpr h))

theorem exec_wmatch_of_lt {s : State} (h : s.inLen < s.posReg) :
    exec .wmatch s = .next (s.raise .eInvariant 0) := congrArg _ (if_pos h)

/-- Settles O28: no match, or one whose numbers fit their registers. -/
theorem matchRule : Obligations.MatchRule := by
  unfold Obligations.MatchRule
  refine fun s => ⟨fun hle => ?_, exec_wmatch_of_lt⟩
  rw [exec_wmatch_of_le hle]
  cases hmatch : matchAt s.mem.inp s.posReg with
  | none => exact ⟨false, 0, 0, rfl, fun _ => ⟨rfl, rfl, rfl⟩, nofun⟩
  | some best =>
    obtain ⟨len, dist⟩ := best
    obtain ⟨-, hdist, -, hlen⟩ := matchAt_some hmatch
    refine ⟨true, BitVec.ofNat 9 len, BitVec.ofNat 14 dist, rfl, nofun, fun len' dist' h => ?_⟩
    cases h
    simp only [BitVec.toNat_ofNat, true_and]
    omega

/-! ### Emission under the capacity of `OUT` (R140, R143, R232) -/

/-- `OUT` with bytes appended. -/
def State.appendOut (bytes : List Byte) (s : State) : State :=
  { s with mem := { s.mem with out := s.mem.out ++ bytes } }

/-- The encoder's cursors at given values. -/
def State.encoderAt (pos blockStart : Nat) (s : State) : State :=
  { s with pos := pos, blockStart := blockStart }

/-- Emit checked bytes and end the operation. -/
def State.emitFinish (r : Except Cause (List Byte)) (s : State) : State :=
  match s.emit r with
  | .error e => s.raise e 0
  | .ok t => t.finish

variable {s : State} {bytes c data : List Byte} {src : Src}

@[simp] theorem appendOut_nil (s : State) : s.appendOut [] = s := by
  simp [State.appendOut]

@[simp] theorem appendOut_appendOut (a b : List Byte) (s : State) :
    (s.appendOut a).appendOut b = s.appendOut (a ++ b) := by
  simp [State.appendOut]

@[simp] theorem appendOut_outLen (s : State) (bytes : List Byte) :
    (s.appendOut bytes).outLen = s.outLen + bytes.length := List.length_append

theorem emit_ok (s : State) (bytes : List Byte) :
    s.emit (.ok bytes) =
      if fits s.par.capOut (s.outLen + bytes.length) then .ok (s.appendOut bytes)
      else .error .eCapacity := rfl

theorem emitFinish_ok (s : State) (bytes : List Byte) :
    s.emitFinish (.ok bytes) =
      if fits s.par.capOut (s.outLen + bytes.length) then (s.appendOut bytes).finish
      else s.raise .eCapacity 0 := by
  rw [State.emitFinish, emit_ok]
  cases fits s.par.capOut (s.outLen + bytes.length) <;> rfl

theorem emitFinish_of_fits (h : fits s.par.capOut (s.outLen + bytes.length) = true) :
    s.emitFinish (.ok bytes) = (s.appendOut bytes).finish :=
  (emitFinish_ok s bytes).trans (if_pos h)

theorem emitFinish_of_full (h : fits s.par.capOut (s.outLen + bytes.length) = false) :
    s.emitFinish (.ok bytes) = s.raise .eCapacity 0 :=
  (emitFinish_ok s bytes).trans (if_neg (Bool.eq_false_iff.mp h))

theorem emitFinish_error (s : State) (e : Cause) : s.emitFinish (.error e) = s.raise e 0 := rfl

theorem exec_emitl (s : State) : exec .emitl s = .next (s.emitFinish (emitLit s.mem.inp)) := rfl

theorem exec_emitr (s : State) :
    exec .emitr s = .next (s.emitFinish (emitRef s.elen.toNat s.edist.toNat)) := rfl

/-- Settles O29: the block of `emit_lit` under the capacity, or its refusal. -/
theorem emitlRule : Obligations.EmitlRule := by
  unfold Obligations.EmitlRule
  intro s
  rw [exec_emitl]
  have hblock (h1 : 1 ≤ s.inLen) (h32 : s.inLen ≤ 32) :
      emitLit s.mem.inp = .ok (litBytes s.mem.inp) :=
    if_neg (not_or.mpr ⟨Nat.not_lt.mpr h1, Nat.not_lt.mpr h32⟩)
  refine ⟨fun h1 h32 hfits => ?_, fun h1 h32 hfull => ?_, fun hout => ?_⟩
  · rw [hblock h1 h32]
    exact congrArg _ (emitFinish_of_fits hfits)
  · rw [hblock h1 h32]
    exact congrArg _ (emitFinish_of_full hfull)
  · have hrefused : emitLit s.mem.inp = .error .eInvariant :=
      if_pos (hout.imp (Nat.lt_one_iff.mpr ·) id)
    rw [hrefused, emitFinish_error]

/-- The bytes of a reference block as numbers (R75). -/
theorem refBytes_toNat {length distance : Nat} (h3 : 3 ≤ length) (h264 : length ≤ 264)
    (h8192 : distance ≤ 8192) :
    (length ≤ 8 → (refBytes length distance).map BitVec.toNat =
      [(length - 2) * 32 + (distance - 1) / 256, (distance - 1) % 256]) ∧
    (9 ≤ length → (refBytes length distance).map BitVec.toNat =
      [7 * 32 + (distance - 1) / 256, length - 9, (distance - 1) % 256]) := by
  obtain ⟨hhi, hlo⟩ := distance_fields h8192
  have hhigh : (distance - 1) >>> 8 < 32 := by omega
  refine ⟨fun hshort => ?_, fun hlong => ?_⟩
  · rw [refBytes, if_neg (by omega), ofNat_header _ hhigh]
    simp only [List.map_cons, List.map_nil, headerByte_toNat, hhi, hlo, BitVec.toNat_ofNat]
    congr 1
    omega
  · rw [refBytes, if_pos (by omega), ofNat_header _ hhigh]
    simp only [List.map_cons, List.map_nil, headerByte_toNat, hhi, hlo, BitVec.toNat_ofNat]
    congr 2
    omega

theorem refBytes_length {length : Nat} (hmin : 3 ≤ length) (distance : Nat) :
    (refBytes length distance).length + 1 ≤ length := by
  rw [refBytes]
  split <;> simp only [List.length_cons, List.length_nil] <;> omega

/-- Settles O30: the block of `emit_ref` under the capacity, or its refusal. -/
theorem emitrRule : Obligations.EmitrRule := by
  unfold Obligations.EmitrRule
  intro s length distance hlen hdist
  rw [exec_emitr, hlen, hdist]
  refine ⟨fun h3 h264 h1 h8192 => ?_, fun hout => ?_⟩
  · obtain ⟨hshort, hlong⟩ := refBytes_toNat h3 h264 h8192
    rw [emitRef_of_range h3 h264 h1 h8192]
    exact ⟨_, hshort, hlong, fun hfits => congrArg _ (emitFinish_of_fits hfits),
      fun hfull => congrArg _ (emitFinish_of_full hfull)⟩
  · have hrefused : emitRef length distance = .error .eInvariant := by
      by_cases hlength : length < 3 ∨ 264 < length
      · exact if_pos hlength
      · have hdistance : distance < 1 ∨ 8192 < distance := by omega
        exact (if_neg hlength).trans (if_pos hdistance)
    rw [hrefused, emitFinish_error]

/-! ### One step of the loop (R147 to R150, R152) -/

/-- The bytes `flush` gives for a run (R142). -/
def flushed (run : List Byte) : List Byte := (lits run).flatMap encode

theorem flush_eq_flushed (run : List Byte) : flush run = .ok (flushed run) := flush_eq run

theorem flushed_length (run : List Byte) :
    (flushed run).length = run.length + (run.length + 31) / 32 := encode_lits_length run

@[simp] theorem flushed_nil : flushed [] = [] := rfl

theorem flushAndFinish_eq (run : List Byte) (s : State) :
    flushAndFinish run s = s.emitFinish (.ok (flushed run)) := by
  rw [← flush_eq_flushed]
  rfl

/-- The encoder takes no match at a cursor: there is none of 3 or more (R148). -/
def NoMatchAt (data : List Byte) (pos : Nat) : Prop :=
  ∀ len dist, matchAt data pos = some (len, dist) → len < 3

/-- A match the encoder takes has operands `emit_ref` accepts. -/
theorem emitRef_of_matchAt {pos len dist : Nat} (hmatch : matchAt data pos = some (len, dist))
    (h3 : 3 ≤ len) : emitRef len dist = .ok (refBytes len dist) := by
  obtain ⟨h1, hdist, -, hlen⟩ := matchAt_some hmatch
  exact emitRef_of_range h3 (by omega) h1 (by omega)

theorem encStep_level_zero (h0 : s.level = 0) :
    encStep src s = s.emitFinish (.ok (flushed (s.srcBuf src))) :=
  (if_pos h0).trans (flushAndFinish_eq _ s)

theorem encStep_end (h0 : s.level ≠ 0) (hpos : (s.srcBuf src).length ≤ s.pos) :
    encStep src s = s.emitFinish (.ok (flushed (s.pendingRun src))) :=
  (if_neg h0).trans ((if_neg (Nat.not_lt.mpr hpos)).trans (flushAndFinish_eq _ s))

theorem encStep_skip (h0 : s.level ≠ 0) (hpos : s.pos < (s.srcBuf src).length)
    (hno : NoMatchAt (s.srcBuf src) s.pos) :
    encStep src s = s.encoderAt (s.pos + 1) s.blockStart := by
  rw [encStep, if_neg h0, if_pos hpos]
  split
  next => rfl
  next len dist hmatch => exact if_neg (Nat.not_le.mpr (hno len dist hmatch))

/-- The run and the reference go in one after the other; both fit exactly when the two together do.
-/
theorem takeMatch_eq {len dist : Nat} {block : List Byte} (hblock : emitRef len dist = .ok block) :
    takeMatch src len dist s =
      if fits s.par.capOut (s.outLen + (flushed (s.pendingRun src) ++ block).length) then
        .ok ((s.appendOut (flushed (s.pendingRun src) ++ block)).encoderAt
          (s.pos + len) (s.pos + len))
      else .error .eCapacity := by
  rw [takeMatch, flush_eq_flushed, emit_ok]
  generalize flushed (s.pendingRun src) = run
  by_cases hrun : fits s.par.capOut (s.outLen + run.length) = true
  · have hboth : (s.appendOut run).emit (.ok block) =
        if fits s.par.capOut (s.outLen + (run ++ block).length) then
          .ok (s.appendOut (run ++ block))
        else .error .eCapacity := by
      rw [emit_ok, appendOut_outLen, appendOut_appendOut, List.length_append, Nat.add_assoc]
      rfl
    rw [if_pos hrun, hblock]
    simp only
    rw [hboth]
    cases fits s.par.capOut (s.outLen + (run ++ block).length) <;> rfl
  · have hall : ¬ fits s.par.capOut (s.outLen + (run ++ block).length) = true :=
      fun h => hrun (fits_mono h (by rw [List.length_append]; omega))
    rw [if_neg hrun, if_neg hall]

theorem encStep_take {len dist : Nat} (h0 : s.level ≠ 0) (hpos : s.pos < (s.srcBuf src).length)
    (hmatch : matchAt (s.srcBuf src) s.pos = some (len, dist)) (h3 : 3 ≤ len) :
    encStep src s =
      if fits s.par.capOut
          (s.outLen + (flushed (s.pendingRun src) ++ refBytes len dist).length) then
        (s.appendOut (flushed (s.pendingRun src) ++ refBytes len dist)).encoderAt
          (s.pos + len) (s.pos + len)
      else s.raise .eCapacity 0 := by
  rw [encStep, if_neg h0, if_pos hpos, hmatch]
  refine (if_pos h3).trans ?_
  rw [takeMatch_eq (emitRef_of_matchAt hmatch h3)]
  split <;> rfl

@[simp] theorem passRead_srcBuf (src : Src) (s : State) : s.passRead.srcBuf src = s.srcBuf src := by
  cases src <;> simp [State.srcBuf]

@[simp] theorem passRead_pendingRun (src : Src) (s : State) :
    s.passRead.pendingRun src = s.pendingRun src := by
  simp [State.pendingRun]

@[simp] theorem passRead_outLen (s : State) : s.passRead.outLen = s.outLen := by
  simp [State.outLen]

theorem microStep_enc (hseq : s.seq = .enc src) : microStep s = encStep src s := by
  rw [microStep, hseq]

theorem step_enc (hr : NoResetNext s) (hb : s.st = .busy) (hseq : s.seq = .enc src) :
    step s = .next (encStep src s.passRead) := by
  rw [step_micro hr hb (by simp [hseq]), microStep_enc (by rwa [State.passRead_seq])]

theorem passRead_appendOut (s : State) (bytes : List Byte) :
    s.passRead.appendOut bytes =
      { s.passRead with mem := { s.mem with out := s.mem.out ++ bytes } } := by
  simp [State.appendOut]

theorem step_emitFinish (hstep : step s = .next (s.passRead.emitFinish (.ok bytes))) :
    (fits s.par.capOut (s.outLen + bytes.length) = true →
      step s = .next { s.passRead with
        mem := { s.mem with out := s.mem.out ++ bytes }, st := .done, seq := .op }) ∧
    (fits s.par.capOut (s.outLen + bytes.length) = false →
      step s = .next (s.passRead.raise .eCapacity 0)) := by
  rw [hstep]
  refine ⟨fun hfits => ?_, fun hfull => congrArg _ (emitFinish_of_full (by simpa using hfull))⟩
  rw [emitFinish_of_fits (by simpa using hfits), passRead_appendOut]
  rfl

/-- Settles O34: the four branches of a step of the loop. -/
theorem encoderCursorStep : Obligations.EncoderCursorStep := by
  unfold Obligations.EncoderCursorStep
  intro s src hr hb hseq
  have hstep := step_enc hr hb hseq
  refine ⟨fun data hdata => ?_, fun h0 hpos => ⟨fun len dist hmatch h3 => ?_, fun hno => ?_⟩⟩
  · refine ⟨flushed data, flush_eq_flushed data, step_emitFinish (hstep.trans (congrArg _ ?_))⟩
    obtain ⟨h0, rfl⟩ | ⟨h0, hpos, rfl⟩ := hdata
    · rw [encStep_level_zero (by simpa using h0), passRead_srcBuf]
    · rw [encStep_end (by simpa using h0) (by simpa using hpos), passRead_pendingRun]
      rfl
  · refine ⟨flushed (s.pendingRun src), refBytes len dist, flush_eq_flushed _,
      emitRef_of_matchAt hmatch h3, ?_⟩
    rw [hstep, encStep_take (by simpa using h0) (by simpa using hpos) (by simpa using hmatch) h3]
    simp only [State.passRead_par, passRead_outLen, passRead_pendingRun, State.passRead_pos,
      passRead_appendOut]
    exact ⟨fun hfits => congrArg _ (if_pos hfits),
      fun hfull => congrArg _ (if_neg (Bool.eq_false_iff.mp hfull))⟩
  · have hskip := encStep_skip (s := s.passRead) (src := src) (by simpa using h0)
      (by simpa using hpos) (by simpa [NoMatchAt] using hno)
    rw [hstep, hskip]
    simp [State.encoderAt]

/-! ### The greedy loop as a relation (R146, R152) -/

/-- From cursor `pos` with a pending run from `bs` on, the encoder makes these bytes of the input.
-/
inductive Encodes (data : List Byte) : Nat → Nat → List Byte → Prop
  | finish {pos bs : Nat} (hpos : data.length ≤ pos) :
    Encodes data pos bs (flushed (memRead data bs (pos - bs)))
  | skip {pos bs : Nat} {c : List Byte} (hpos : pos < data.length) (hno : NoMatchAt data pos)
      (hrest : Encodes data (pos + 1) bs c) : Encodes data pos bs c
  | take {pos bs len dist : Nat} {c : List Byte} (hpos : pos < data.length)
      (hmatch : matchAt data pos = some (len, dist)) (h3 : 3 ≤ len)
      (hrest : Encodes data (pos + len) (pos + len) c) :
    Encodes data pos bs (flushed (memRead data bs (pos - bs)) ++ refBytes len dist ++ c)

/-- At every cursor the encoder takes a match or it does not. -/
theorem match_or_noMatchAt (data : List Byte) (pos : Nat) :
    (∃ len dist, matchAt data pos = some (len, dist) ∧ 3 ≤ len) ∨ NoMatchAt data pos := by
  by_cases h : ∃ len dist, matchAt data pos = some (len, dist) ∧ 3 ≤ len
  · exact .inl h
  · exact .inr fun len dist hmatch => Nat.lt_of_not_le fun h3 => h ⟨len, dist, hmatch, h3⟩

theorem exists_encodes (data : List Byte) (pos bs : Nat) : ∃ c, Encodes data pos bs c := by
  by_cases hpos : pos < data.length
  · obtain ⟨len, dist, hmatch, h3⟩ | hno := match_or_noMatchAt data pos
    · obtain ⟨c, hc⟩ := exists_encodes data (pos + len) (pos + len)
      exact ⟨_, .take hpos hmatch h3 hc⟩
    · obtain ⟨c, hc⟩ := exists_encodes data (pos + 1) bs
      exact ⟨c, .skip hpos hno hc⟩
  · exact ⟨_, .finish (Nat.le_of_not_lt hpos)⟩
termination_by data.length - pos

theorem compFrom_of_end {pos : Nat} (hpos : data.length ≤ pos) (k bs : Nat) :
    compFrom data k pos bs = .ok (flushed (memRead data bs (pos - bs))) := by
  rw [← flush_eq_flushed]
  cases k with
  | zero => rfl
  | succ k => exact if_neg (Nat.not_lt.mpr hpos)

/-- With a bound of one cursor position per byte left, the result function gives these bytes. -/
theorem Encodes.compFrom_eq {pos bs : Nat} (h : Encodes data pos bs c) (k : Nat)
    (hk : data.length - pos ≤ k) : compFrom data k pos bs = .ok c := by
  induction h generalizing k with
  | finish hpos => exact compFrom_of_end hpos k _
  | skip hpos hno _ ih =>
    obtain ⟨k, rfl⟩ : ∃ m, k = m + 1 := ⟨k - 1, by omega⟩
    rw [compFrom, if_pos hpos]
    split
    next => exact ih k (by omega)
    next len dist hmatch =>
      exact (if_neg (Nat.not_le.mpr (hno len dist hmatch))).trans (ih k (by omega))
  | take hpos hmatch h3 _ ih =>
    obtain ⟨k, rfl⟩ : ∃ m, k = m + 1 := ⟨k - 1, by omega⟩
    rw [compFrom, if_pos hpos, hmatch]
    refine (if_pos h3).trans ?_
    rw [flush_eq_flushed, emitRef_of_matchAt hmatch h3, ih k (by omega)]
    rfl

/-- What `comp` gives: one flush at level 0 (R149), else the bytes of the greedy loop. -/
theorem comp_nonzero {level : BitVec 4} (h0 : level ≠ 0) (h : Encodes data 0 0 c) :
    comp data level = .ok c :=
  (if_neg h0).trans (h.compFrom_eq _ (Nat.sub_le _ _))

theorem encodes_of_comp {level : BitVec 4} (h0 : level ≠ 0) (h : comp data level = .ok c) :
    Encodes data 0 0 c := by
  obtain ⟨c', hc⟩ := exists_encodes data 0 0
  cases h.symm.trans (comp_nonzero h0 hc)
  exact hc

/-! ### The size of the compressed form (R153) -/

theorem memRead_length_le {α : Type} (b : List α) (a n : Nat) : (memRead b a n).length ≤ n :=
  List.length_take_le _ _

/-- A reference is at least one byte shorter than what it stands for, which pays for the literal
block that its run may leave unfilled. -/
theorem Encodes.length_le {pos bs : Nat} (h : Encodes data pos bs c) (hbs : bs ≤ pos)
    (hpos : pos ≤ data.length) :
    c.length ≤ (data.length - bs) + (data.length - bs + 31) / 32 := by
  induction h with
  | @finish pos bs hend =>
    have hrun := memRead_length_le data bs (pos - bs)
    rw [flushed_length]
    omega
  | skip hlt _ _ ih => exact ih (by omega) hlt
  | @take pos bs len dist c hlt hmatch h3 _ ih =>
    obtain ⟨-, -, -, hlen⟩ := matchAt_some hmatch
    have hrest := ih (Nat.le_refl _) (by omega)
    have hrun := memRead_length_le data bs (pos - bs)
    have hblock := refBytes_length h3 dist
    rw [List.length_append, List.length_append, flushed_length]
    omega

/-- Settles O35: level 0 has the size of one flush, the greedy loop the bound of `Encodes`. -/
theorem compSizeBound : Obligations.CompSizeBound := by
  unfold Obligations.CompSizeBound
  intro data c level h
  by_cases h0 : level = 0
  · subst h0
    cases h.symm.trans ((comp_zero data).trans (flush_eq_flushed data))
    exact (flushed_length data).le
  · exact (encodes_of_comp h0 h).length_le (Nat.le_refl 0) (Nat.zero_le _)

/-! ### A run of equal bytes (R209, R213) -/

theorem matchLength_replicate (v : Byte) {n : Nat} (hmax : n ≤ 265) :
    matchLength (List.replicate n v) 1 1 = n - 1 := by
  have hle := matchLength_le (List.replicate n v) 1 1
  rw [List.length_replicate] at hle
  by_contra hne
  refine getElem?_matchLength_ne (data := List.replicate n v) (pos := 1) (d := 1)
    (by rw [List.length_replicate]; omega) ?_
  rw [List.getElem?_replicate, List.getElem?_replicate, if_pos (by omega), if_pos (by omega)]

theorem matchAt_replicate (v : Byte) {n : Nat} (hmax : n ≤ 265) :
    matchAt (List.replicate n v) 1 = some (n - 1, 1) := by
  rw [← matchLength_replicate v hmax]
  rfl

/-- Settles O36: no match at the first byte, one of all the rest at the second. -/
theorem runCompressesToOneReference : Obligations.RunCompressesToOneReference := by
  unfold Obligations.RunCompressesToOneReference
  intro v n level hmin hmax h0
  have hlen : (List.replicate n v).length = n := List.length_replicate
  have hend : Encodes (List.replicate n v) (1 + (n - 1)) (1 + (n - 1)) [] := by
    simpa [memRead] using Encodes.finish (data := List.replicate n v) (pos := 1 + (n - 1))
      (bs := 1 + (n - 1)) (by omega)
  have htake : Encodes (List.replicate n v) 1 0 (flushed [v] ++ refBytes (n - 1) 1) := by
    have hrun : memRead (List.replicate n v) 0 (1 - 0) = [v] := by
      simp [memRead, List.take_replicate, Nat.min_eq_left (show 1 ≤ n by omega)]
    have := Encodes.take (bs := 0) (by omega) (matchAt_replicate v hmax) (by omega) hend
    rwa [hrun, List.append_nil] at this
  have hno : NoMatchAt (List.replicate n v) 0 := nofun
  have hlit : flushed [v] = [0, v] := by
    simpa [flushed, lits, chunkLits, encode] using headerByte_zero (n := 0) (by omega)
  rw [← hlit]
  exact comp_nonzero h0 (.skip (by omega) hno htake)

/-! ### The round trip (44_codec_chain_and_properties.md R203) -/

/-- Wherever the blocks of a run stand in a stream, decoding them appends the run. -/
theorem decodes_flushed {stream rest run : List Byte} {rp : Nat}
    (h : stream.drop rp = flushed run ++ rest) (out : List Byte) :
    Decodes stream rp out (rp + (flushed run).length) (out ++ run) := by
  induction run using chunk_induction generalizing rp out with
  | nil => simpa using Decodes.refl rp out
  | chunk run hrun ih =>
    have hsplit : flushed run = encode (.lit (run.take 32)) ++ flushed (run.drop 32) := by
      rw [flushed, lits_of_ne_nil hrun, List.flatMap_cons, flushed]
    rw [hsplit, List.append_assoc] at h
    have hdec : decodeBlock (stream.drop rp) = _ :=
      h ▸ decodeBlock_encode (wf_lit_take hrun) rfl _
    have hrest := drop_add_of_drop_eq_append h
    rw [encode_length] at hrest
    have hdecodes := ih hrest (out ++ run.take 32)
    rw [List.append_assoc, List.take_append_drop] at hdecodes
    rw [hsplit, List.length_append, encode_length, ← Nat.add_assoc]
    exact .block hdec rfl hdecodes

/-- Copying a match continues the input: the copy's recurrence is the match's agreement. -/
theorem copied_take {pos dist len : Nat} (h1 : 1 ≤ dist) (hdist : dist ≤ pos)
    (hlen : pos + len ≤ data.length)
    (hagree : ∀ j, j < len → data[pos + j]? = data[pos - dist + j]?) :
    copied (data.take pos) len dist = data.take (pos + len) := by
  induction len generalizing pos with
  | zero => rfl
  | succ len ih =>
    have htake : (data.take pos).length = pos := List.length_take_of_le (by omega)
    have hbyte : data[pos - dist] = data[pos] := by
      have hfirst := hagree 0 (Nat.succ_pos len)
      rw [Nat.add_zero, Nat.add_zero, List.getElem?_eq_getElem (by omega),
        List.getElem?_eq_getElem (by omega)] at hfirst
      exact (Option.some.inj hfirst).symm
    have hgrow : data.take pos ++ [data[pos]] = data.take (pos + 1) :=
      List.take_append_getElem (by omega)
    rw [copied_succ h1 (by rw [htake]; exact hdist)]
    simp only [htake, List.getElem_take, hbyte, hgrow]
    rw [ih (by omega) (by omega) fun j hj => ?_, Nat.add_right_comm, Nat.add_assoc]
    have hnext := hagree (j + 1) (by omega)
    have hplace : pos + 1 + j = pos + (j + 1) := by omega
    have hsource : pos + 1 - dist + j = pos - dist + (j + 1) := by omega
    rw [hplace, hsource, hnext]

/-- Wherever the reference to a match stands in a stream, decoding it continues the input. -/
theorem decodes_refBytes {stream rest : List Byte} {rp pos len dist : Nat}
    (h : stream.drop rp = refBytes len dist ++ rest)
    (hmatch : matchAt data pos = some (len, dist)) (h3 : 3 ≤ len) :
    Decodes stream rp (data.take pos) (rp + (refBytes len dist).length)
      (data.take (pos + len)) := by
  obtain ⟨h1, hdist, hlength, hlen⟩ := matchAt_some hmatch
  obtain ⟨i, -, hwf, hspace, hbytes, hwith⟩ := exists_assembleRef h3 (by omega) h1 (by omega)
  obtain ⟨-, -, -, hresult, -, -⟩ := refWith_facts hwith
  have hcopy : blockResult i (data.take pos) = .ok (data.take (pos + len)) := by
    rw [hresult, refResult_of_le (by rw [List.length_take]; omega),
      copied_take h1 (by omega) (by omega)
        fun j hj => getElem?_eq_of_lt_matchLength (hlength ▸ hj)]
  rw [hbytes] at h ⊢
  rw [encode_length]
  exact .of_block (h ▸ decodeBlock_encode hwf hspace rest) hcopy

/-- Wherever the bytes of the greedy loop stand in a stream, decoding them continues the input from
the start of the pending run to its end. -/
theorem Encodes.decodes {pos bs : Nat} (h : Encodes data pos bs c) (hbs : bs ≤ pos)
    (hpos : pos ≤ data.length) {stream rest : List Byte} {rp : Nat}
    (hstream : stream.drop rp = c ++ rest) :
    Decodes stream rp (data.take bs) (rp + c.length) data := by
  induction h generalizing rp with
  | @finish pos bs hend =>
    have hrun := decodes_flushed hstream (data.take bs)
    rwa [memRead, ← List.take_add, Nat.add_sub_cancel' hbs, List.take_of_length_le hend] at hrun
  | skip hlt _ _ ih => exact ih (by omega) hlt hstream
  | @take pos bs len dist c hlt hmatch h3 _ ih =>
    obtain ⟨-, -, -, hlen⟩ := matchAt_some hmatch
    rw [List.append_assoc, List.append_assoc] at hstream
    have hrun := decodes_flushed hstream (data.take bs)
    rw [memRead, ← List.take_add, Nat.add_sub_cancel' hbs, ← memRead] at hrun
    have hstream' := drop_add_of_drop_eq_append hstream
    have hblock := decodes_refBytes hstream' hmatch h3
    have hrest := ih (Nat.le_refl _) (by omega) (drop_add_of_drop_eq_append hstream')
    rw [List.length_append, List.length_append, ← Nat.add_assoc, ← Nat.add_assoc]
    exact hrun.trans (hblock.trans hrest)

theorem comp_decomp (data : List Byte) (level : BitVec 4) :
    ∃ c, comp data level = .ok c ∧ decomp c = .ok data := by
  by_cases h0 : level = 0
  · subst h0
    exact ⟨_, (comp_zero data).trans (flush_eq data), decomp_lits data⟩
  · obtain ⟨c, hc⟩ := exists_encodes data 0 0
    have hdecodes := hc.decodes (stream := c) (rest := []) (rp := 0) (Nat.le_refl 0) (Nat.zero_le _)
      (by simp)
    exact ⟨c, comp_nonzero h0 hc, Decodes.decomp_eq (by simpa using hdecodes)⟩

/-- Settles O42: level 0 is a flush, any other level the greedy loop, and both decode to the input.
-/
theorem byteRoundTrip : Obligations.ByteRoundTrip := by
  unfold Obligations.ByteRoundTrip
  exact comp_decomp

/-! ### The machine's loop (R146, R152) -/

theorem emitFinish_encoderAt (r : Except Cause (List Byte)) (p b p' b' : Nat) (s : State) :
    ((s.encoderAt p b).emitFinish r).encoderAt p' b' = (s.emitFinish r).encoderAt p' b' := by
  cases r with
  | error e => rfl
  | ok c =>
    cases h : fits s.par.capOut (s.outLen + c.length) with
    | true =>
      rw [emitFinish_of_fits h, emitFinish_of_fits (s := s.encoderAt p b) h]
      rfl
    | false =>
      rw [emitFinish_of_full h, emitFinish_of_full (s := s.encoderAt p b) h]
      rfl

theorem emitFinish_appendOut (x c : List Byte) (s : State) :
    (s.appendOut x).emitFinish (.ok c) =
      if fits s.par.capOut (s.outLen + (x ++ c).length) then (s.appendOut (x ++ c)).finish
      else s.raise .eCapacity 0 := by
  rw [emitFinish_ok, appendOut_outLen, appendOut_appendOut, List.length_append, Nat.add_assoc]
  rfl

/-- What does not fit by itself does not fit with more behind it. -/
theorem emitFinish_append_of_full {x : List Byte}
    (h : ¬ fits s.par.capOut (s.outLen + x.length) = true) (c : List Byte) :
    s.emitFinish (.ok (x ++ c)) = s.raise .eCapacity 0 := by
  rw [emitFinish_ok, if_neg fun hall => h (fits_mono hall (by rw [List.length_append]; omega))]

theorem emitFinish_not_busy (r : Except Cause (List Byte)) (s : State) :
    (s.emitFinish r).st ≠ .busy := by
  rw [State.emitFinish]
  split <;> simp

/-- The machine's loop emits the bytes of the greedy loop and ends, within one step per cursor
position left and one more (R152). -/
theorem runsTo_of_encodes (h : Encodes (s.srcBuf src) s.pos s.blockStart c) (hb : s.st = .busy)
    (hseq : s.seq = .enc src) (h0 : s.level ≠ 0) :
    ∃ p b, RunsTo ((s.srcBuf src).length - s.pos + 1) s ((s.emitFinish (.ok c)).encoderAt p b) := by
  generalize hdata : s.srcBuf src = data at h
  generalize hp : s.pos = pos at h
  generalize hbs : s.blockStart = bs at h
  induction h generalizing s with
  | @finish pos bs hend =>
    subst hdata hp hbs
    have hstep := (microStep_enc hseq).trans (encStep_end h0 hend)
    exact ⟨_, _, (RunsTo.last hb hstep (emitFinish_not_busy _ s)).mono (Nat.le_add_left 1 _)⟩
  | @skip pos bs c hlt hno _ ih =>
    subst hdata hp hbs
    have hstep := (microStep_enc hseq).trans (encStep_skip h0 hlt hno)
    obtain ⟨p, b, hrun⟩ := ih (s := s.encoderAt (s.pos + 1) s.blockStart) hb hseq h0
      (by cases src <;> rfl) rfl rfl
    rw [emitFinish_encoderAt] at hrun
    exact ⟨p, b, (RunsTo.step hb (hstep ▸ hrun)).mono (by omega)⟩
  | @take pos bs len dist c hlt hmatch h3 _ ih =>
    subst hdata hp hbs
    have hstep := (microStep_enc hseq).trans (encStep_take h0 hlt hmatch h3)
    rw [State.pendingRun] at hstep
    generalize flushed (memRead (s.srcBuf src) s.blockStart (s.pos - s.blockStart)) ++
      refBytes len dist = x at hstep
    split at hstep
    next hfits =>
      obtain ⟨p, b, hrun⟩ := ih (s := (s.appendOut x).encoderAt (s.pos + len) (s.pos + len))
        hb hseq h0 (by cases src <;> rfl) rfl rfl
      rw [emitFinish_encoderAt, emitFinish_appendOut, ← emitFinish_ok] at hrun
      exact ⟨p, b, (RunsTo.step hb (hstep ▸ hrun)).mono (by omega)⟩
    next hfull =>
      rw [emitFinish_append_of_full hfull]
      exact ⟨_, _, (RunsTo.last hb hstep (by simp)).mono (Nat.le_add_left 1 _)⟩

/-- The loop from the start of its source emits what `comp` gives, at every level (R146, R149). -/
theorem runsTo_enc (hb : s.st = .busy) (hseq : s.seq = .enc src) (hpos : s.pos = 0)
    (hbs : s.blockStart = 0) :
    ∃ c, comp (s.srcBuf src) s.level = .ok c ∧
      ∃ p b, RunsTo ((s.srcBuf src).length + 1) s ((s.emitFinish (.ok c)).encoderAt p b) := by
  by_cases h0 : s.level = 0
  · have hstep := (microStep_enc hseq).trans (encStep_level_zero h0)
    refine ⟨flushed (s.srcBuf src), by rw [h0, comp_zero, flush_eq_flushed], _, _,
      (RunsTo.last hb hstep (emitFinish_not_busy _ s)).mono (Nat.le_add_left 1 _)⟩
  · obtain ⟨c, hc⟩ := exists_encodes (s.srcBuf src) 0 0
    obtain ⟨p, b, hrun⟩ := runsTo_of_encodes (by rwa [hpos, hbs]) hb hseq h0
    exact ⟨c, comp_nonzero h0 hc, p, b, by rwa [hpos] at hrun⟩

/-- `COMP`'s loop at its start. -/
def State.atComp (s : State) : State :=
  { s with st := .busy, seq := .enc .inp, pos := 0, blockStart := 0 }

theorem exec_comp (s : State) : exec .comp s = .next (runBusy (s.inLen + 1) s.atComp) := rfl

/-- Settles O31: the encoder's loop on `IN` from its start. -/
theorem compAppendsResult : Obligations.CompAppendsResult := by
  unfold Obligations.CompAppendsResult
  intro s _
  obtain ⟨c, hc, p, b, hrun⟩ := runsTo_enc (s := s.atComp) (src := .inp) rfl rfl rfl rfl
  rw [exec_comp, hrun (s.inLen + 1) (Nat.le_refl _)]
  refine ⟨c, hc, fun hfits => ⟨p, b, ?_⟩, fun hfull => ⟨p, b, ?_⟩⟩
  · rw [emitFinish_of_fits (s := s.atComp) hfits]
    rfl
  · rw [emitFinish_of_full (s := s.atComp) hfull]
    rfl

end Sys2Proof.Machine

/-! PROOF. The chain (44_codec_chain_and_properties.md R200 to R205): the serializer's two
directions are inverse, the one-step stages of the composites, and `ENCRAW` and `DECRAW` as one
stage behind the other. -/

namespace Sys2Proof.Machine

/-! ### `DES` after `SER` and `SER` after `DES` (40_timing_serializer.md R108) -/

theorem pairTiming_of_clamp (t : Nat) :
    pairTiming (BitVec.ofNat 8 (min t 65535 % 256)) (BitVec.ofNat 8 (min t 65535 / 256)) =
      BitVec.ofNat 16 (min t 65535) := by
  apply BitVec.eq_of_toNat_eq
  rw [pairTiming_toNat]
  simp only [BitVec.toNat_ofNat]
  omega

theorem pairBytes_pairTiming (b0 b1 : Byte) :
    pairBytes (clamp (pairTiming b0 b1).toNat) = [b0, b1] := by
  have h0 := b0.isLt
  have h1 := b1.isLt
  have hmin : min (b0.toNat + 256 * b1.toNat) 65535 = b0.toNat + 256 * b1.toNat := by omega
  have hlow : (b0.toNat + 256 * b1.toNat) % 256 = b0.toNat := by omega
  have hhigh : (b0.toNat + 256 * b1.toNat) / 256 = b1.toNat := by omega
  rw [pairBytes_clamp, pairTiming_toNat, hmin, hlow, hhigh, BitVec.ofNat_toNat, BitVec.ofNat_toNat,
    BitVec.setWidth_eq, BitVec.setWidth_eq]

theorem des_ser (signal : List Nat) :
    des (ser signal) = .ok (signal.map fun t => BitVec.ofNat 16 (min t 65535)) := by
  induction signal with
  | nil => rfl
  | cons t ts ih =>
    rw [ser_cons, pairBytes_clamp]
    exact des_cons_cons_ok_iff.mpr ⟨_, ih, by rw [pairTiming_of_clamp, List.map_cons]⟩

theorem ser_des : ∀ {payload : List Byte} {ts : List Timing}, des payload = .ok ts →
    ser (ts.map BitVec.toNat) = payload
  | [], _, h => by cases h; rfl
  | [_], _, h => absurd h des_singleton_ne_ok
  | b0 :: b1 :: rest, _, h => by
    obtain ⟨us, hus, rfl⟩ := des_cons_cons_ok_iff.mp h
    rw [List.map_cons, ser_cons, pairBytes_pairTiming, ser_des hus]
    rfl

/-- Settles O25, pair by pair in both directions. -/
theorem serDesInverse : Obligations.SerDesInverse := by
  unfold Obligations.SerDesInverse
  refine ⟨des_ser, fun payload heven => ?_⟩
  obtain ⟨ts, hts⟩ := exists_des_eq_ok heven
  exact ⟨ts, hts, ser_des hts⟩

/-- Settles O43: the byte-level round trip, then the serializer's. -/
theorem signalRoundTrip : Obligations.SignalRoundTrip := by
  unfold Obligations.SignalRoundTrip
  intro signal level
  obtain ⟨c, hc, hdecomp⟩ := comp_decomp (ser signal) level
  refine ⟨c, hc, ?_⟩
  rw [decraw, hdecomp]
  simp only [des_ser]

/-! ### The one-step stages (R200, R201) -/

variable {s t : State} {ts : List Timing}

/-- `MID` with a payload appended, and the encoder's loop at its start. -/
def State.behindSer (s : State) : State :=
  { s with
    mem := { s.mem with mid := s.mem.mid ++ ser s.mem.tin }
    seq := .enc .mid, pos := 0, blockStart := 0 }

/-- `TOUT` with timings appended. -/
def State.appendTout (ts : List Timing) (s : State) : State :=
  { s with mem := { s.mem with tout := s.mem.tout ++ ts } }

theorem serStage_of_ok (h : serLoop .mid s.mem.tin s = .ok t) :
    serStage s = { t with seq := .enc .mid, pos := 0, blockStart := 0 } := by
  rw [serStage, h]

theorem serStage_of_error {e : Cause} (h : serLoop .mid s.mem.tin s = .error e) :
    serStage s = s.raise e 0 := by
  rw [serStage, h]

theorem serStage_of_fits (h : fits s.par.capMid (s.midLen + 2 * s.tinLen) = true) :
    serStage s = s.behindSer := by
  have hs : fits s.par.capMid s.midLen = true := fits_mono h (Nat.le_add_right _ _)
  exact serStage_of_ok ((serLoop_eq (k := .mid) s.mem.tin hs).trans (if_pos h))

theorem serStage_of_full (hs : fits s.par.capMid s.midLen = true)
    (h : fits s.par.capMid (s.midLen + 2 * s.tinLen) = false) :
    serStage s = s.raise .eCapacity 0 :=
  serStage_of_error ((serLoop_eq (k := .mid) s.mem.tin hs).trans (if_neg (Bool.eq_false_iff.mp h)))

theorem desStage_of_ok (h : desLoop s.mem.mid s = .ok t) : desStage s = t.finish := by
  rw [desStage, h]

theorem desStage_of_error {e : Cause} (h : desLoop s.mem.mid s = .error e) :
    desStage s = s.raise e 0 := by
  rw [desStage, h]

theorem desStage_of_odd (h : s.midLen % 2 = 1) : desStage s = s.raise .eOdd 0 :=
  desStage_of_error (desLoop_of_odd h s)

theorem desStage_of_fits (hts : des s.mem.mid = .ok ts)
    (h : fits s.par.capTout (s.toutLen + ts.length) = true) :
    desStage s = (s.appendTout ts).finish := by
  have hs : fits s.par.capTout s.toutLen = true := fits_mono h (Nat.le_add_right _ _)
  exact desStage_of_ok ((desLoop_eq hts hs).trans (if_pos h))

theorem desStage_of_full (hts : des s.mem.mid = .ok ts) (hs : fits s.par.capTout s.toutLen = true)
    (h : fits s.par.capTout (s.toutLen + ts.length) = false) :
    desStage s = s.raise .eCapacity 0 :=
  desStage_of_error ((desLoop_eq hts hs).trans (if_neg (Bool.eq_false_iff.mp h)))

theorem microStep_ser (hseq : s.seq = .ser) : microStep s = serStage s := by
  rw [microStep, hseq]

theorem microStep_des (hseq : s.seq = .des) : microStep s = desStage s := by
  rw [microStep, hseq]

theorem step_ser (hr : NoResetNext s) (hb : s.st = .busy) (hseq : s.seq = .ser) :
    step s = .next (serStage s.passRead) := by
  rw [step_micro hr hb (by simp [hseq]), microStep_ser (by rwa [State.passRead_seq])]

theorem step_des (hr : NoResetNext s) (hb : s.st = .busy) (hseq : s.seq = .des) :
    step s = .next (desStage s.passRead) := by
  rw [step_micro hr hb (by simp [hseq]), microStep_des (by rwa [State.passRead_seq])]

@[simp] theorem passRead_tinLen (s : State) : s.passRead.tinLen = s.tinLen := by simp [State.tinLen]
@[simp] theorem passRead_midLen (s : State) : s.passRead.midLen = s.midLen := by simp [State.midLen]
@[simp] theorem passRead_toutLen (s : State) : s.passRead.toutLen = s.toutLen := by
  simp [State.toutLen]

/-- Settles O60: each stage with and without room for its result, beside a read of the host. -/
theorem compositeStageSteps : Obligations.CompositeStageSteps := by
  unfold Obligations.CompositeStageSteps
  refine fun s hr hb => ⟨fun hseq => ⟨fun hfits => ?_, fun hs hfull => ?_⟩,
    fun hseq => ⟨fun hodd => ?_, fun ts hts => ⟨fun hfits => ?_, fun hs hfull => ?_⟩⟩⟩
  · rw [step_ser hr hb hseq, serStage_of_fits (by simpa using hfits)]
    simp [State.behindSer]
  · rw [step_ser hr hb hseq, serStage_of_full (by simpa using hs) (by simpa using hfull)]
  · rw [step_des hr hb hseq, desStage_of_odd (by simpa using hodd)]
  · rw [step_des hr hb hseq, desStage_of_fits (by simpa using hts) (by simpa using hfits)]
    simp [State.appendTout, State.finish]
  · rw [step_des hr hb hseq, desStage_of_full (by simpa using hts) (by simpa using hs)
      (by simpa using hfull)]

/-! ### `ENCRAW` (R200) -/

/-- `ENCRAW` at its first stage. -/
def State.atEncraw (s : State) : State := { s with st := .busy, seq := .ser }

theorem exec_encraw (s : State) :
    exec .encraw s = .next (runBusy (s.midLen + 2 * s.tinLen + 2) s.atEncraw) := rfl

theorem exec_encraw_of_runsTo {n : Nat} (h : RunsTo n s.atEncraw t)
    (hn : n ≤ s.midLen + 2 * s.tinLen + 2) : exec .encraw s = .next t :=
  (exec_encraw s).trans (congrArg _ (h _ hn))

/-- Where the payload fits, the encoder's loop runs on it. -/
theorem runsTo_encraw (hmid : s.mem.mid = []) (hfits : fits s.par.capMid (2 * s.tinLen) = true) :
    ∃ c, encraw s.mem.tin s.level = .ok c ∧ ∃ p b,
      RunsTo (2 * s.tinLen + 2) s.atEncraw
        ((s.atEncraw.behindSer.emitFinish (.ok c)).encoderAt p b) := by
  have hzero : s.midLen = 0 := congrArg List.length hmid
  have hpayload : s.atEncraw.behindSer.srcBuf .mid = ser s.mem.tin := by
    change s.mem.mid ++ ser s.mem.tin = _
    rw [hmid, List.nil_append]
  have hstep : microStep s.atEncraw = s.atEncraw.behindSer :=
    serStage_of_fits (by rwa [← Nat.zero_add (2 * s.tinLen), ← hzero] at hfits)
  obtain ⟨c, hc, p, b, hrun⟩ :=
    runsTo_enc (s := s.atEncraw.behindSer) (src := .mid) rfl rfl rfl rfl
  rw [hpayload] at hc hrun
  rw [ser_length] at hrun
  exact ⟨c, hc, p, b, .step rfl (hstep ▸ hrun)⟩

/-- Settles O40: the serializer's stage and behind it the encoder's loop; each can end in
`E_CAPACITY`. -/
theorem encrawDeliversResult : Obligations.EncrawDeliversResult := by
  unfold Obligations.EncrawDeliversResult
  intro s hmid _
  have hzero : s.midLen = 0 := congrArg List.length hmid
  cases hcap : fits s.par.capMid (2 * s.tinLen) with
  | true =>
    obtain ⟨c, hc, p, b, hrun⟩ := runsTo_encraw hmid hcap
    have hexec := exec_encraw_of_runsTo hrun (by omega)
    refine ⟨c, hc, fun _ hfits => ⟨p, b, hexec.trans ?_⟩, fun hfull => ⟨p, b, hexec.trans ?_⟩⟩
    · rw [emitFinish_of_fits (s := s.atEncraw.behindSer) hfits]
      simp [State.behindSer, State.atEncraw, State.appendOut, State.finish, State.encoderAt, hmid]
    · rw [emitFinish_of_full (s := s.atEncraw.behindSer) (hfull.resolve_left nofun)]
      rfl
  | false =>
    obtain ⟨c, hc, -⟩ := comp_decomp (ser s.mem.tin) s.level
    have hstep : microStep s.atEncraw = s.atEncraw.raise .eCapacity 0 :=
      serStage_of_full (by change fits _ s.midLen = true; rw [hzero, fits_zero])
        (by rwa [← Nat.zero_add (2 * s.tinLen), ← hzero] at hcap)
    have hexec := exec_encraw_of_runsTo (.last rfl hstep (by simp)) (by omega)
    exact ⟨c, hc, nofun, fun _ => ⟨_, _, hexec⟩⟩

/-! ### `DECRAW` (R201, R202) -/

/-- `DECRAW`'s read loop at its start. -/
def State.atDecraw (s : State) : State := { s with st := .busy, seq := .dec .mid, rp := 0 }

theorem exec_decraw (s : State) : exec .decraw s = .next (runBusy (s.inLen + 2) s.atDecraw) := rfl

theorem exec_decraw_of_runsTo {n : Nat} (h : RunsTo n s.atDecraw t) (hn : n ≤ s.inLen + 2) :
    exec .decraw s = .next t := (exec_decraw s).trans (congrArg _ (h _ hn))

/-- `DECRAW`'s second stage, behind the whole stream with its payload in `MID`. -/
def State.atDes (payload : List Byte) (l : BitVec 9) (d : BitVec 14) (s : State) : State :=
  { s.atDecraw.behindBlocks .mid payload s.inLen l d with seq := .des }

/-- Where the payload fits, `DECRAW` ends as the deserializer's stage ends. -/
theorem exec_decraw_of_payload {payload : List Byte} (hmid : s.mem.mid = [])
    (h : decomp s.mem.inp = .ok payload) (hfits : fits s.par.capMid payload.length = true) :
    ∃ l d, ∀ t, desStage (s.atDes payload l d) = t → t.st ≠ .busy → exec .decraw s = .next t := by
  obtain ⟨l, d, hrun⟩ :=
    runsTo_dec_of_ok (s := s.atDecraw) (k := .mid) rfl rfl rfl hmid h hfits
  have hend : microStep (s.atDecraw.behindBlocks .mid payload s.atDecraw.inLen l d) =
      s.atDes payload l d := (microStep_dec rfl).trans (decStep_mid_of_end (Nat.le_refl _))
  refine ⟨l, d, fun t ht hdone => exec_decraw_of_runsTo (hrun 2 t ?_) (Nat.le_refl _)⟩
  exact .step rfl (hend ▸ .last rfl ((microStep_des rfl).trans ht) hdone)

theorem decraw_of_payload {c payload : List Byte} (h : decomp c = .ok payload)
    (hts : des payload = .ok ts) : decraw c = .ok ts := by
  rw [decraw, h]
  simp only [hts]

theorem des_of_odd {payload : List Byte} (hodd : payload.length % 2 = 1) :
    des payload = .error .eOdd := by
  match payload with
  | [] => simp at hodd
  | [_] => rfl
  | b0 :: b1 :: rest =>
    rw [des, des_of_odd (by simp only [List.length_cons] at hodd; omega)]

/-- Settles O41: the read loop into `MID`, then the deserializer's stage. -/
theorem decrawDeliversResult : Obligations.DecrawDeliversResult := by
  unfold Obligations.DecrawDeliversResult
  intro s hmid
  refine ⟨fun payload ts ho hts hfits =>
      ⟨decraw_of_payload ho hts, fun hroom => ?_, fun hs hfull => ?_⟩,
    fun payload ho hodd hfits => ⟨?_, ?_⟩, fun payload ho hfull => ?_, fun e p he => ⟨?_, ?_⟩⟩
  · obtain ⟨l, d, hexec⟩ := exec_decraw_of_payload hmid ho hfits
    exact ⟨l, d, hexec _ (desStage_of_fits hts hroom) (by simp)⟩
  · obtain ⟨l, d, hexec⟩ := exec_decraw_of_payload hmid ho hfits
    exact ⟨_, l, d, hexec _ (desStage_of_full hts hs hfull) (by simp)⟩
  · rw [decraw, ho]
    simp only [des_of_odd hodd]
  · obtain ⟨l, d, hexec⟩ := exec_decraw_of_payload hmid ho hfits
    exact ⟨_, l, d, hexec _ (desStage_of_odd hodd) (by simp)⟩
  · obtain ⟨r, l, d, hrun⟩ :=
      runsTo_dec_of_full (s := s.atDecraw) (k := .mid) rfl rfl rfl hmid ho hfull
    exact ⟨r, l, d, exec_decraw_of_runsTo hrun (Nat.le_add_right _ _)⟩
  · rw [decraw, he]
  · obtain ⟨before, hbefore, hfits, hfull⟩ :=
      runsTo_dec_of_error (s := s.atDecraw) (k := .mid) rfl rfl rfl hmid he
    refine ⟨before, hbefore, fun h => ?_, fun h => ?_⟩
    · obtain ⟨l, d, hrun⟩ := hfits h
      exact ⟨l, d, exec_decraw_of_runsTo hrun (Nat.le_add_right _ _)⟩
    · obtain ⟨r, l, d, hrun⟩ := hfull h
      exact ⟨r, l, d, exec_decraw_of_runsTo hrun (Nat.le_add_right _ _)⟩

end Sys2Proof.Machine

/-! PROOF. Reset, `START` and the host's moves and reads (10_state.md R27 to R37; 60_exceptions.md
R232 to R236; 70_reset_and_hazards.md R260 to R263): each outcome of `State.startOp` said once, then
one step of a core that is not `BUSY`. -/

namespace Sys2Proof.Machine

variable {s t : State} {rest : List HostMove}

/-! ### Reset (R37, R260) and error entry (R235) -/

/-- Settles O9, field by field. -/
theorem resetTable : Obligations.ResetTable := by
  unfold Obligations.ResetTable
  exact fun p => ⟨rfl, rfl, rfl, rfl, rfl, rfl, rfl, rfl, rfl, rfl, rfl, rfl, rfl, rfl, rfl, rfl,
    rfl, rfl, rfl, rfl, rfl⟩

/-- Settles O10: reset is looked at before the status. -/
theorem resetActsInAnyState : Obligations.ResetActsInAnyState := by
  unfold Obligations.ResetActsInAnyState
  exact fun s rest hh => step_reset hh

/-- Settles O46, by the definition of `State.raise`. -/
theorem errorEntryWrites : Obligations.ErrorEntryWrites := by
  unfold Obligations.ErrorEntryWrites
  exact fun e p s => rfl

/-! ### `START` (R34, R232 to R234) -/

theorem decodeOp_of_no_operation {op : BitVec 4} (h : op = 0 ∨ 10 ≤ op.toNat) :
    decodeOp op = .error .badOp := by
  obtain ⟨-, -, -, -, -, -, -, -, -, hbad⟩ := operationCodes
  exact hbad op h

theorem decodeOp_isOk : ∀ op : BitVec 4, 1 ≤ op.toNat ∧ op.toNat ≤ 9 →
    (decodeOp op).isOk = true := by decide

theorem exists_decodeOp {op : BitVec 4} (hop : 1 ≤ op.toNat ∧ op.toNat ≤ 9) :
    ∃ i, decodeOp op = .ok i := by
  have hok := decodeOp_isOk op hop
  cases h : decodeOp op with
  | ok i => exact ⟨i, rfl⟩
  | error e => rw [h] at hok; cases hok

theorem startOp_of_badOp {e : DecodeError} (h : decodeOp s.op = .error e) :
    s.startOp = s.startEffects.raise .eBadOp 0 := by
  rw [State.startOp, h]

theorem startOp_of_fits {i : Instr} (h : decodeOp s.op = .ok i)
    (hfits : fits s.par.capTin s.tinLen = true ∧ fits s.par.capIn s.inLen = true) :
    s.startOp = { s.startEffects with seq := startSeq s.par.grain i } := by
  rw [State.startOp, h]
  exact if_pos (by simp [hfits])

theorem startOp_of_full {i : Instr} (h : decodeOp s.op = .ok i)
    (hfull : ¬ (fits s.par.capTin s.tinLen = true ∧ fits s.par.capIn s.inLen = true)) :
    s.startOp = s.startEffects.raise .eCapacity 0 := by
  rw [State.startOp, h]
  exact if_neg (by simpa using hfull)

/-- `START` does one of three things, in the order of R234. -/
theorem startOp_cases (s : State) :
    s.startOp = s.startEffects.raise .eBadOp 0 ∨ s.startOp = s.startEffects.raise .eCapacity 0 ∨
    ∃ i, decodeOp s.op = .ok i ∧
      (fits s.par.capTin s.tinLen = true ∧ fits s.par.capIn s.inLen = true) ∧
      s.startOp = { s.startEffects with seq := startSeq s.par.grain i } := by
  cases hop : decodeOp s.op with
  | error e => exact .inl (startOp_of_badOp hop)
  | ok i =>
    by_cases hfits : fits s.par.capTin s.tinLen = true ∧ fits s.par.capIn s.inLen = true
    · exact .inr (.inr ⟨i, rfl, hfits, startOp_of_fits hop hfits⟩)
    · exact .inr (.inl (startOp_of_full hop hfits))

theorem step_start (hb : s.st ≠ .busy) (hh : s.host = .start :: rest) :
    step s = .next ({ s with host := rest } : State).startOp := step_move hb hh nofun

/-- Settles O11: the third case of `START`. -/
theorem startBeginsOperation : Obligations.StartBeginsOperation := by
  unfold Obligations.StartBeginsOperation
  intro s rest i hb hh hop htin hin
  rw [step_start hb hh, startOp_of_fits (s := { s with host := rest }) hop ⟨htin, hin⟩]
  rfl

/-- Settles O12: the first two cases of `START`. -/
theorem startEndsAtOnce : Obligations.StartEndsAtOnce := by
  unfold Obligations.StartEndsAtOnce
  rintro s rest e hb hh (⟨hop, rfl⟩ | ⟨hop, rfl, hfull⟩)
  · rw [step_start hb hh, startOp_of_badOp (s := { s with host := rest })
      (decodeOp_of_no_operation hop)]
    rfl
  · obtain ⟨i, hi⟩ := exists_decodeOp hop
    rw [step_start hb hh, startOp_of_full (s := { s with host := rest }) hi]
    · rfl
    · rintro ⟨htin, hin⟩
      obtain h | h := hfull
      · exact Bool.eq_false_iff.mp h htin
      · exact Bool.eq_false_iff.mp h hin

/-- The register writes of `START` leave nothing but the inputs and the host. -/
theorem startEffects_eq_of_sameInputs (h : SameInputs s t) (hhost : s.host = t.host) :
    s.startEffects = t.startEffects := by
  obtain ⟨hpar, hop, hlevel, hpos, helen, hedist, htin, hinp⟩ := h
  simp only [State.startEffects, State.clearBuffers, State.clearMatch, hpar, hop, hlevel, hpos,
    helen, hedist, htin, hinp, hhost]

/-- Settles O13: the writes of `START` forget the past, and its checks look at inputs only. -/
theorem startForgetsThePast : Obligations.StartForgetsThePast := by
  unfold Obligations.StartForgetsThePast
  intro s t h hhost
  have heffects := startEffects_eq_of_sameInputs h hhost
  obtain ⟨hpar, hop, -, -, -, -, htin, hinp⟩ := h
  simp only [State.startOp, State.tinLen, State.inLen, heffects, hpar, hop, htin, hinp]

/-! ### The host's writes (R27 to R33, R51, R262) -/

/-- Settles O51: each move by its own arm of `hostMove`. -/
theorem idleCoreObeysHostOnly : Obligations.IdleCoreObeysHostOnly := by
  unfold Obligations.IdleCoreObeysHostOnly
  intro s rest hb
  exact ⟨step_rest hb, fun _ hh => step_move hb hh nofun, fun _ hh => step_move hb hh nofun,
    fun _ hh => step_move hb hh nofun, fun _ hh => step_move hb hh nofun,
    fun _ hh => step_move hb hh nofun, fun _ hh => step_move hb hh nofun,
    fun hh => step_move hb hh nofun,
    fun _ hh hall => (step_move hb hh nofun).trans (if_pos (List.all_eq_true.mpr hall))⟩

/-- Settles O52: each checked write by its test. -/
theorem hostElementWrites : Obligations.HostElementWrites := by
  unfold Obligations.HostElementWrites
  intro s rest hb
  refine ⟨fun j b hh => ⟨fun hj => ?_, fun hj => ?_⟩, fun n hh => ⟨fun hn => ?_, fun hn => ?_⟩,
    fun j t hh => ⟨fun hj ht => ?_, fun hj ht => ?_, fun hj => ?_⟩,
    fun n hh => ⟨fun hn => ?_, fun hn => ?_⟩, fun xs hh hwide => ?_⟩
  all_goals rw [step_move hb hh nofun]
  · exact if_neg (Nat.not_le.mpr hj)
  · exact if_pos hj
  · exact if_neg (Nat.not_lt.mpr hn)
  · exact if_pos hn
  · exact (if_neg (Nat.not_le.mpr hj)).trans (if_pos ht)
  · exact (if_neg (Nat.not_le.mpr hj)).trans (if_neg (Bool.eq_false_iff.mp ht))
  · exact if_pos hj
  · exact if_neg (Nat.not_lt.mpr hn)
  · exact if_pos hn
  · obtain ⟨t, hmem, ht⟩ := hwide
    exact if_neg fun hall => Bool.eq_false_iff.mp ht (List.all_eq_true.mp hall t hmem)

/-! ### The host's reads (R27 to R33, R231, R261 to R263) -/

theorem hostRead_st (s : State) : s.hostRead .st = some s.st.code.toNat := by
  simp [State.hostRead, State.regValue]

theorem hostRead_of_busy (hb : s.st = .busy) {r : HostReg} (hr : r ≠ .st) : s.hostRead r = none :=
  if_pos ⟨hb, hr⟩

theorem hostRead_of_not_busy (hb : s.st ≠ .busy) (r : HostReg) :
    s.hostRead r = some (s.regValue r) := if_neg fun h => hb h.1

/-- Settles O47: only `ST` reads while `BUSY`; otherwise each register by its value. -/
theorem hostReads : Obligations.HostReads := by
  unfold Obligations.HostReads
  refine fun s => ⟨fun h => ?_, fun h => ?_, fun h => ?_, fun h => ⟨?_, fun r => hostRead_of_busy h,
    fun j => ⟨if_pos h, if_pos h, if_pos h⟩⟩, fun h => ?_⟩
  · rw [hostRead_st, h]; rfl
  · rw [hostRead_st, h]; rfl
  · rw [hostRead_st, h]; rfl
  · rw [hostRead_st, h]; rfl
  · simp only [hostRead_of_not_busy h, State.hostReadOut, State.hostReadTout, State.hostReadIn,
      if_neg h, State.regValue, State.tinLen, State.inLen, State.outLen, State.toutLen,
      implies_true, and_self, true_and]
    constructor
    · cases s.mFound <;> rfl
    · cases s.err <;> rfl

end Sys2Proof.Machine

/-! PROOF. What a step of a running operation can do, said once (`BusyOutcome`): end in an error,
end normally, or go on with less left to do. From it the status transitions, the kept inputs, error
entry, termination with its bounds, and the invariant (10_state.md R29 to R35; 60_exceptions.md
R231, R235, R245; 70_reset_and_hazards.md R263, R266). -/

namespace Sys2Proof.Machine

/-! ### What an operation works on -/

/-- `t` differs from `s` at most in what an operation works on: the result buffers, the working
registers, the status and the sequencer. The form of the buffers is kept. -/
structure Keeps (s t : State) : Prop where
  frame : t = { s with
    mem := { s.mem with mid := t.mem.mid, out := t.mem.out, tout := t.mem.tout }
    pos := t.pos, blockStart := t.blockStart, rp := t.rp, lReg := t.lReg, dReg := t.dReg
    st := t.st, seq := t.seq }
  wf : Memory.wf s.par s.mem = true → Memory.wf t.par t.mem = true

variable {s t u : State} {e : Cause} {p : Nat} {src : Src} {k : Sink} {i : Instr}

theorem Keeps.refl (s : State) : Keeps s s := ⟨rfl, id⟩

theorem Keeps.trans (h : Keeps s t) (h' : Keeps t u) : Keeps s u where
  frame := by
    rw [h'.frame, h.frame]
  wf := h'.wf ∘ h.wf

theorem Keeps.par (h : Keeps s t) : t.par = s.par := by rw [h.frame]
theorem Keeps.tin (h : Keeps s t) : t.mem.tin = s.mem.tin := by rw [h.frame]
theorem Keeps.inp (h : Keeps s t) : t.mem.inp = s.mem.inp := by rw [h.frame]
theorem Keeps.inLen (h : Keeps s t) : t.inLen = s.inLen := congrArg List.length h.inp
theorem Keeps.op (h : Keeps s t) : t.op = s.op := by rw [h.frame]
theorem Keeps.level (h : Keeps s t) : t.level = s.level := by rw [h.frame]
theorem Keeps.posReg (h : Keeps s t) : t.posReg = s.posReg := by rw [h.frame]
theorem Keeps.elen (h : Keeps s t) : t.elen = s.elen := by rw [h.frame]
theorem Keeps.edist (h : Keeps s t) : t.edist = s.edist := by rw [h.frame]
theorem Keeps.host (h : Keeps s t) : t.host = s.host := by rw [h.frame]
theorem Keeps.err (h : Keeps s t) : t.err = s.err := by rw [h.frame]
theorem Keeps.errpos (h : Keeps s t) : t.errpos = s.errpos := by rw [h.frame]
theorem Keeps.mFound (h : Keeps s t) : t.mFound = s.mFound := by rw [h.frame]
theorem Keeps.mLen (h : Keeps s t) : t.mLen = s.mLen := by rw [h.frame]
theorem Keeps.mDist (h : Keeps s t) : t.mDist = s.mDist := by rw [h.frame]

theorem Keeps.sameInputs (h : Keeps s t) : SameInputs s t :=
  ⟨h.par, h.op, h.level, h.posReg, h.elen, h.edist, h.tin, h.inp⟩

/-! ### The stages of an operation keep what they do not work on -/

theorem push_keeps {xs : List Byte} (h : s.push k xs = .ok t) : Keeps s t where
  frame := by
    obtain ⟨-, rfl⟩ := push_ok_iff.mp h
    cases k <;> rfl
  wf hwf := push_keeps_wf hwf h

theorem pushTimings_keeps {xs : List Timing} (h : s.pushTimings xs = .ok t) : Keeps s t where
  frame := by
    obtain ⟨-, rfl⟩ := pushTimings_ok_iff.mp h
    rfl
  wf hwf := pushTimings_keeps_wf hwf h

theorem serLoop_keeps {ts : List Nat} (h : serLoop k ts s = .ok t) : Keeps s t := by
  induction ts generalizing s with
  | nil => cases h; exact .refl _
  | cons x xs ih =>
    rw [serLoop] at h
    split at h
    next u hu => exact (push_keeps hu).trans (ih h)
    next => cases h

theorem desLoop_keeps {bs : List Byte} (h : desLoop bs s = .ok t) : Keeps s t := by
  induction bs, s using desLoop.induct with
  | case1 s => cases h; exact .refl _
  | case2 => cases h
  | case3 b0 b1 rest s hodd => rw [desLoop, if_pos hodd] at h; cases h
  | case4 b0 b1 rest s heven u hu ih =>
    rw [desLoop, if_neg heven, hu] at h
    exact (pushTimings_keeps hu).trans (ih h)
  | case5 b0 b1 rest s heven e he => rw [desLoop, if_neg heven, he] at h; cases h

theorem appendOut_keeps {bytes : List Byte}
    (h : fits s.par.capOut (s.outLen + bytes.length) = true) : Keeps s (s.appendOut bytes) :=
  push_keeps (k := .out) (push_ok_iff.mpr ⟨h, rfl⟩)

theorem encoderAt_keeps (p b : Nat) (s : State) : Keeps s (s.encoderAt p b) := ⟨rfl, id⟩

theorem afterBlock_keeps {out : List Byte} (h : fits (s.sinkCap s.sink) out.length = true) :
    Keeps s (s.afterBlock i out) where
  frame := by
    rw [State.afterBlock]
    cases s.sink <;> rfl
  wf hwf := by
    rw [memory_wf_iff] at hwf ⊢
    obtain ⟨hmid, hout, htout, htin⟩ := hwf
    rw [State.afterBlock]
    cases hk : s.sink <;> rw [hk] at h
    · exact ⟨hmid, h, htout, htin⟩
    · exact ⟨h, hout, htout, htin⟩

/-! ### The ways an operation ends -/

/-- A cause and its position, other than `E_INVARIANT` and `E_BADOP`, as a stage raises it:
`E_TRUNC` and `E_BACKREF` at the header the read loop stands at, inside the stream; any other at 0
(R231). -/
def StageCause (s : State) (e : Cause) (p : Nat) : Prop :=
  (e = .eCapacity ∨ e = .eOdd) ∧ p = 0 ∨ (e = .eTrunc ∨ e = .eBackref) ∧ p = s.rp ∧ s.rp < s.inLen

/-- An operation that runs in `s` ends in `t`, by a cause of one of its stages or normally. -/
inductive Ends (s : State) : State → Prop
  | raised {u : State} {e : Cause} {p : Nat} (hkeeps : Keeps s u) (hcause : StageCause u e p) :
    Ends s (u.raise e p)
  | finished {u : State} (hkeeps : Keeps s u) : Ends s u.finish

theorem Ends.of_keeps (hkeeps : Keeps s u) (h : Ends u t) : Ends s t := by
  cases h with
  | raised hkeeps' hcause => exact .raised (hkeeps.trans hkeeps') hcause
  | finished hkeeps' => exact .finished (hkeeps.trans hkeeps')

theorem Ends.capacity (s : State) : Ends s (s.raise .eCapacity 0) :=
  .raised (.refl s) (.inl ⟨.inl rfl, rfl⟩)

theorem Ends.done_or_err (h : Ends s t) : t.st = .done ∨ t.st = .err := by
  cases h with
  | raised => exact .inr rfl
  | finished => exact .inl rfl

theorem st_ne_busy (h : t.st = .done ∨ t.st = .err) : t.st ≠ .busy := by
  obtain h | h := h <;> rw [h] <;> nofun

theorem emitFinish_ends (s : State) (bytes : List Byte) : Ends s (s.emitFinish (.ok bytes)) := by
  cases h : fits s.par.capOut (s.outLen + bytes.length) with
  | true => rw [emitFinish_of_fits h]; exact .finished (appendOut_keeps h)
  | false => rw [emitFinish_of_full h]; exact .capacity s

theorem desLoop_error {bs : List Byte} (h : desLoop bs s = .error e) :
    e = .eOdd ∨ e = .eCapacity := by
  obtain ⟨_, -, hok⟩ | hodd | hcap := desLoop_cases bs s
  · cases hok.symm.trans h
  · cases hodd.symm.trans h; exact .inl rfl
  · cases hcap.symm.trans h; exact .inr rfl

theorem serLoop_error {ts : List Nat} (h : serLoop k ts s = .error e) : e = .eCapacity := by
  obtain hok | hcap := serLoop_cases k ts s
  · cases hok.symm.trans h
  · cases hcap.symm.trans h; rfl

theorem desStage_ends (s : State) : Ends s (desStage s) := by
  cases h : desLoop s.mem.mid s with
  | ok t => rw [desStage_of_ok h]; exact .finished (desLoop_keeps h)
  | error e =>
    rw [desStage_of_error h]
    exact .raised (.refl s) (.inl ⟨(desLoop_error h).symm, rfl⟩)

/-! ### What is left to do -/

/-- A bound on the steps a running operation still takes: one per cursor position or per two stream
bytes, and one for each stage behind (R152, R183). -/
def State.remaining (s : State) : Nat :=
  match s.seq with
  | .op => 1
  | .ser => s.midLen + 2 * s.tinLen + 2
  | .enc src => (s.srcBuf src).length - s.pos + 1
  | .dec .out => (s.inLen - s.rp) / 2 + 1
  | .dec .mid => (s.inLen - s.rp) / 2 + 2
  | .des => 1

/-- The cursors of the step machines are where the invariant has them (R22, R24). -/
def State.CursorsOk (s : State) : Prop :=
  (∀ src, s.seq = .enc src → s.blockStart ≤ s.pos ∧ s.pos ≤ (s.srcBuf src).length) ∧
    ∀ k, s.seq = .dec k → s.rp ≤ s.inLen

/-- What follows a stage that does not end the operation: itself, or the next stage of a composite.
-/
def NextStage : Seq → Seq → Prop
  | .op, _ => False
  | .ser, q => q = .enc .mid
  | .enc src, q => q = .enc src
  | .dec k, q => q = .dec k ∨ k = .mid ∧ q = .des
  | .des, _ => False

/-- A step of a step machine that does not end the operation. -/
structure Advances (s t : State) : Prop where
  keeps : Keeps s t
  st_eq : t.st = s.st
  next : NextStage s.seq t.seq
  remaining_lt : t.remaining < s.remaining
  cursors : s.CursorsOk → t.CursorsOk

theorem one_le_remaining (s : State) : 1 ≤ s.remaining := by
  rw [State.remaining]
  split <;> omega

theorem remaining_enc (h : s.seq = .enc src) : s.remaining = (s.srcBuf src).length - s.pos + 1 := by
  rw [State.remaining, h]

/-- The steps a read loop's operation takes behind its last block: the end of the stream, and in
`DECRAW` the deserializer's stage. -/
def stepsBehind : Sink → Nat
  | .out => 1
  | .mid => 2

theorem remaining_dec (h : s.seq = .dec k) :
    s.remaining = (s.inLen - s.rp) / 2 + stepsBehind k := by
  rw [State.remaining, h]
  cases k <;> rfl

theorem cursorsOk_enc (h : s.seq = .enc src) (hbs : s.blockStart ≤ s.pos)
    (hpos : s.pos ≤ (s.srcBuf src).length) : s.CursorsOk := by
  refine ⟨fun src' h' => ?_, fun k h' => ?_⟩
  · cases h.symm.trans h'; exact ⟨hbs, hpos⟩
  · cases h.symm.trans h'

theorem cursorsOk_dec (h : s.seq = .dec k) (hrp : s.rp ≤ s.inLen) : s.CursorsOk := by
  refine ⟨fun src h' => ?_, fun k' h' => ?_⟩
  · cases h.symm.trans h'
  · exact hrp

theorem NextStage.ne_op {q q' : Seq} (h : NextStage q q') : q ≠ .op ∧ q' ≠ .op := by
  cases q with
  | op => exact absurd h id
  | ser => cases h; exact ⟨nofun, nofun⟩
  | enc src => cases h; exact ⟨nofun, nofun⟩
  | dec k =>
    obtain rfl | ⟨-, rfl⟩ := h <;> exact ⟨nofun, nofun⟩
  | des => exact absurd h id

/-! ### One step of a step machine -/

theorem serStage_outcome (hseq : s.seq = .ser) :
    Ends s (serStage s) ∨ Advances s (serStage s) := by
  cases h : serLoop .mid s.mem.tin s with
  | error e =>
    rw [serStage_of_error h, serLoop_error h]
    exact .inl (.capacity s)
  | ok t =>
    obtain hok | hcap := serLoop_cases .mid s.mem.tin s
    · cases hok.symm.trans h
      rw [serStage_of_ok h]
      refine .inr ⟨(serLoop_keeps h).trans ⟨rfl, id⟩, rfl, by rw [hseq]; rfl, ?_,
        fun _ => cursorsOk_enc rfl (Nat.le_refl 0) (Nat.zero_le _)⟩
      have hlen : (s.mem.mid ++ ser s.mem.tin).length = s.midLen + 2 * s.tinLen := by
        rw [List.length_append, ser_length]
        rfl
      rw [remaining_enc (src := .mid) rfl, State.remaining, hseq]
      change (s.mem.mid ++ ser s.mem.tin).length - 0 + 1 < s.midLen + 2 * s.tinLen + 2
      omega
    · cases hcap.symm.trans h

/-- A step of the encoder's loop that goes on has moved its cursor forward. -/
theorem advances_encoderAt {bytes : List Byte} {p b : Nat} (hseq : s.seq = .enc src)
    (hkeeps : Keeps s (s.appendOut bytes)) (hlt : s.pos < (s.srcBuf src).length) (hp : s.pos < p)
    (hle : p ≤ (s.srcBuf src).length) (hb : b = s.blockStart ∨ b = p) :
    Advances s ((s.appendOut bytes).encoderAt p b) := by
  have hsrc : ((s.appendOut bytes).encoderAt p b).srcBuf src = s.srcBuf src := by cases src <;> rfl
  refine ⟨hkeeps.trans (encoderAt_keeps p b _), rfl, by rw [hseq]; exact hseq, ?_, fun hcur => ?_⟩
  · rw [remaining_enc (s := (s.appendOut bytes).encoderAt p b) hseq, remaining_enc hseq, hsrc]
    change _ - p + 1 < _
    omega
  · obtain ⟨hbs, -⟩ := hcur.1 src hseq
    refine cursorsOk_enc (s := (s.appendOut bytes).encoderAt p b) hseq ?_ (hsrc ▸ hle)
    change b ≤ p
    omega

theorem encStep_outcome (hseq : s.seq = .enc src) :
    Ends s (encStep src s) ∨ Advances s (encStep src s) := by
  by_cases h0 : s.level = 0
  · rw [encStep_level_zero h0]
    exact .inl (emitFinish_ends s _)
  by_cases hlt : s.pos < (s.srcBuf src).length
  · obtain ⟨len, dist, hmatch, h3⟩ | hno := match_or_noMatchAt (s.srcBuf src) s.pos
    · obtain ⟨-, -, -, hlen⟩ := matchAt_some hmatch
      rw [encStep_take h0 hlt hmatch h3]
      split
      next hfits =>
        exact .inr
          (advances_encoderAt hseq (appendOut_keeps hfits) hlt (by omega) (by omega) (.inr rfl))
      next => exact .inl (.capacity s)
    · rw [encStep_skip h0 hlt hno]
      have hadv := advances_encoderAt (bytes := []) hseq (by rw [appendOut_nil]; exact .refl s) hlt
        (Nat.lt_succ_self _) hlt (.inl rfl)
      rw [appendOut_nil] at hadv
      exact .inr hadv
  · rw [encStep_end h0 (Nat.le_of_not_lt hlt)]
    exact .inl (emitFinish_ends s _)

theorem blockEffect_outcome {rest : List Byte} (hseq : s.seq = .dec k)
    (hdec : decodeBlock (s.mem.inp.drop s.rp) = .ok (i, rest)) :
    Ends s (blockEffect i s) ∨ Advances s (blockEffect i s) := by
  obtain ⟨-, hspace, -⟩ := encode_of_decodeBlock hdec
  obtain ⟨htwo, hsize⟩ := size_range_of_decodeBlock hdec
  have hrp : s.rp < s.inLen := by omega
  obtain ⟨-, h⟩ | ⟨-, h⟩ | ⟨-, h⟩ | ⟨o, -, hfits, h⟩ := blockEffect_cases hspace s
  · rw [h]; exact .inl (.raised (.refl s) (.inr ⟨.inl rfl, rfl, hrp⟩))
  · rw [h]; exact .inl (.raised (.refl s) (.inr ⟨.inr rfl, rfl, hrp⟩))
  · rw [h]; exact .inl (.capacity s)
  · rw [h]
    have hseq' : (s.afterBlock i o).seq = .dec k := (afterBlock_seq i o s).trans hseq
    have hlen : (s.afterBlock i o).inLen = s.inLen := congrArg List.length (afterBlock_inp i o s)
    have hmove : (s.afterBlock i o).rp = s.rp + i.size := rfl
    refine .inr ⟨afterBlock_keeps hfits, afterBlock_st i o s, by rw [hseq]; exact .inl hseq', ?_,
      fun _ => cursorsOk_dec hseq' (by omega)⟩
    rw [remaining_dec hseq', remaining_dec hseq]
    omega

theorem decStep_outcome (hseq : s.seq = .dec k) :
    Ends s (decStep k s) ∨ Advances s (decStep k s) := by
  by_cases hrp : s.rp < s.inLen
  · cases hdec : decodeBlock (s.mem.inp.drop s.rp) with
    | error err =>
      rw [decStep_of_error k hrp hdec]
      exact .inl (.raised (.refl s) (.inr ⟨.inl rfl, rfl, hrp⟩))
    | ok r =>
      rw [decStep_of_decodeBlock k hdec]
      exact blockEffect_outcome hseq hdec
  · have hend : s.inLen ≤ s.rp := Nat.le_of_not_lt hrp
    cases k with
    | out => rw [decStep_out_of_end hend]; exact .inl (.finished (.refl s))
    | mid =>
      rw [decStep_mid_of_end hend]
      refine .inr ⟨⟨rfl, id⟩, rfl, by rw [hseq]; exact .inr ⟨rfl, rfl⟩, ?_, fun _ => ⟨nofun, nofun⟩⟩
      rw [remaining_dec hseq]
      exact Nat.lt_of_lt_of_le (Nat.lt_succ_self 1) (Nat.le_add_left 2 _)

/-- A step of a step machine ends the operation or advances it. -/
theorem microStep_outcome (hseq : s.seq ≠ .op) :
    Ends s (microStep s) ∨ Advances s (microStep s) := by
  cases h : s.seq with
  | op => exact absurd h hseq
  | ser => rw [microStep_ser h]; exact serStage_outcome h
  | enc src => rw [microStep_enc h]; exact encStep_outcome h
  | dec k => rw [microStep_dec h]; exact decStep_outcome h
  | des => rw [microStep_des h]; exact .inl (desStage_ends s)

/-- Run with its bound of steps, a step machine ends the operation. -/
theorem runBusy_ends (hb : s.st = .busy) (hseq : s.seq ≠ .op) (n : Nat) (hn : s.remaining ≤ n) :
    Ends s (runBusy n s) := by
  induction n generalizing s with
  | zero => have := one_le_remaining s; omega
  | succ n ih =>
    rw [runBusy_succ hb]
    obtain hends | hadv := microStep_outcome hseq
    · rwa [runBusy_of_not_busy (st_ne_busy hends.done_or_err)]
    · have hlt := hadv.remaining_lt
      exact .of_keeps hadv.keeps (ih (hadv.st_eq.trans hb) hadv.next.ne_op.2 (by omega))

/-! ### One step of a running operation -/

/-- An operation other than the three that raise `E_INVARIANT` (R245) ends by a cause of a stage or
normally, in every state. -/
theorem exec_ends (hspace : i.space = .command) (hl : i ≠ .emitl) (hr : i ≠ .emitr)
    (hm : i ≠ .wmatch) (s : State) : ∃ t, exec i s = .next t ∧ Ends s t := by
  cases i with
  | ser =>
    cases h : serLoop .out s.mem.tin s with
    | ok t => exact ⟨_, exec_ser_of_ok h, .finished (serLoop_keeps h)⟩
    | error e => exact ⟨_, exec_ser_of_error h, serLoop_error h ▸ .capacity s⟩
  | des =>
    cases h : desLoop s.mem.inp s with
    | ok t => exact ⟨_, exec_des_of_ok h, .finished (desLoop_keeps h)⟩
    | error e =>
      exact ⟨_, exec_des_of_error h, .raised (.refl s) (.inl ⟨(desLoop_error h).symm, rfl⟩)⟩
  | comp =>
    exact ⟨_, rfl, .of_keeps (u := s.atComp) ⟨rfl, id⟩
      (runBusy_ends rfl (by simp [State.atComp]) _ (Nat.le_refl _))⟩
  | decomp =>
    refine ⟨_, rfl, .of_keeps (u := s.atDecomp) ⟨rfl, id⟩
      (runBusy_ends rfl (by simp [State.atDecomp]) _ ?_)⟩
    change (s.inLen - 0) / 2 + 1 ≤ s.inLen + 1
    omega
  | encraw =>
    exact ⟨_, rfl, .of_keeps (u := s.atEncraw) ⟨rfl, id⟩
      (runBusy_ends rfl (by simp [State.atEncraw]) _ (Nat.le_refl _))⟩
  | decraw =>
    refine ⟨_, rfl, .of_keeps (u := s.atDecraw) ⟨rfl, id⟩
      (runBusy_ends rfl (by simp [State.atDecraw]) _ ?_)⟩
    change (s.inLen - 0) / 2 + 2 ≤ s.inLen + 2
    omega
  | emitl => exact absurd rfl hl
  | emitr => exact absurd rfl hr
  | wmatch => exact absurd rfl hm
  | lit data => cases hspace
  | ref lf dhi dlo => cases hspace
  | refx dhi c dlo => cases hspace

/-- Everything a step of a running operation can do. -/
inductive BusyOutcome (s : State) : State → Prop
  | ends {t : State} (h : Ends s t) : BusyOutcome s t
  | refused {e : Cause} (he : e = .eInvariant ∨ e = .eBadOp) : BusyOutcome s (s.raise e 0)
  | matched (hpos : s.posReg ≤ s.inLen) :
    BusyOutcome s (s.setMatch (matchAt s.mem.inp s.posReg)).finish
  | advances {t : State} (h : Advances s t) : BusyOutcome s t

theorem emitFinish_outcome (r : Except Cause (List Byte)) (s : State)
    (hr : ∀ e, r = .error e → e = .eInvariant) : BusyOutcome s (s.emitFinish r) := by
  cases r with
  | ok bytes => exact .ends (emitFinish_ends s bytes)
  | error e => rw [emitFinish_error]; exact .refused (.inl (hr e rfl))

theorem emitLit_error {data : List Byte} (h : emitLit data = .error e) : e = .eInvariant := by
  rw [emitLit] at h
  split at h <;> cases h
  rfl

theorem emitRef_error {length distance : Nat} (h : emitRef length distance = .error e) :
    e = .eInvariant := by
  unfold emitRef at h
  split at h
  · cases h; rfl
  · split at h <;> cases h
    rfl

theorem exec_outcome (hspace : i.space = .command) (s : State) :
    ∃ t, exec i s = .next t ∧ BusyOutcome s t := by
  by_cases hl : i = .emitl
  · subst hl
    exact ⟨_, exec_emitl s, emitFinish_outcome _ s fun _ => emitLit_error⟩
  by_cases hr : i = .emitr
  · subst hr
    exact ⟨_, exec_emitr s, emitFinish_outcome _ s fun _ => emitRef_error⟩
  by_cases hm : i = .wmatch
  · subst hm
    by_cases hpos : s.inLen < s.posReg
    · exact ⟨_, exec_wmatch_of_lt hpos, .refused (.inl rfl)⟩
    · have hle := Nat.le_of_not_lt hpos
      exact ⟨_, exec_wmatch_of_le hle, .matched hle⟩
  obtain ⟨t, hexec, hends⟩ := exec_ends hspace hl hr hm s
  exact ⟨t, hexec, .ends hends⟩

theorem space_of_decodeOp {op : BitVec 4} (h : decodeOp op = .ok i) : i.space = .command := by
  unfold decodeOp at h
  split at h <;> cases h <;> rfl

theorem busyStep_outcome (s : State) : ∃ t, busyStep s = .next t ∧ BusyOutcome s t := by
  by_cases hseq : s.seq = .op
  · cases hop : decodeOp s.op with
    | error err =>
      exact ⟨s.raise .eBadOp 0, by simp only [busyStep, hseq, hop], .refused (.inr rfl)⟩
    | ok i =>
      obtain ⟨t, hexec, hout⟩ := exec_outcome (space_of_decodeOp hop) s
      exact ⟨t, by simp only [busyStep, hseq, hop, hexec], hout⟩
  · refine ⟨_, busyStep_micro hseq, ?_⟩
    obtain hends | hadv := microStep_outcome hseq
    · exact .ends hends
    · exact .advances hadv

/-- Without a reset a step of a running operation is one of `BusyOutcome`, beside a read of the
host. -/
theorem step_outcome (hr : NoResetNext s) (hb : s.st = .busy) :
    ∃ t, step s = .next t ∧ BusyOutcome s.passRead t := by
  rw [step_busy hr hb]
  exact busyStep_outcome s.passRead

theorem outcome_of_step (hr : NoResetNext s) (hb : s.st = .busy) (h : step s = .next t) :
    BusyOutcome s.passRead t := by
  obtain ⟨t', ht', hout⟩ := step_outcome hr hb
  cases h.symm.trans ht'
  exact hout

/-! ### What every outcome keeps -/

theorem passRead_sameInputs (s : State) : SameInputs s s.passRead := by simp [SameInputs]

theorem SameInputs.refl (s : State) : SameInputs s s := ⟨rfl, rfl, rfl, rfl, rfl, rfl, rfl, rfl⟩

theorem SameInputs.trans (h : SameInputs s t) (h' : SameInputs t u) : SameInputs s u := by
  obtain ⟨h1, h2, h3, h4, h5, h6, h7, h8⟩ := h
  obtain ⟨k1, k2, k3, k4, k5, k6, k7, k8⟩ := h'
  exact ⟨k1.trans h1, k2.trans h2, k3.trans h3, k4.trans h4, k5.trans h5, k6.trans h6, k7.trans h7,
    k8.trans h8⟩

theorem SameInputs.inp (h : SameInputs s t) : t.mem.inp = s.mem.inp := by
  obtain ⟨-, -, -, -, -, -, -, hinp⟩ := h
  exact hinp

theorem Ends.sameInputs (h : Ends s t) : SameInputs s t ∧ t.host = s.host := by
  cases h with
  | raised hkeeps _ => exact ⟨hkeeps.sameInputs, hkeeps.host⟩
  | finished hkeeps => exact ⟨hkeeps.sameInputs, hkeeps.host⟩

theorem BusyOutcome.sameInputs (h : BusyOutcome s t) : SameInputs s t ∧ t.host = s.host := by
  cases h with
  | ends h => exact h.sameInputs
  | refused => exact ⟨raise_sameInputs _ _ s, rfl⟩
  | matched hpos => cases matchAt s.mem.inp s.posReg <;> exact ⟨SameInputs.refl s, rfl⟩
  | advances h => exact ⟨h.keeps.sameInputs, h.keeps.host⟩

/-- A step of a running operation ends it or advances it. -/
theorem BusyOutcome.ended_or_advances (h : BusyOutcome s t) :
    (t.st = .done ∨ t.st = .err) ∨ Advances s t := by
  cases h with
  | ends h => exact .inl h.done_or_err
  | refused => exact .inl (.inr rfl)
  | matched => exact .inl (.inl rfl)
  | advances h => exact .inr h

/-- Settles O50: the inputs and the host's moves, by the outcome of the step. -/
theorem busyKeepsInputs : Obligations.BusyKeepsInputs := by
  unfold Obligations.BusyKeepsInputs
  intro s t hr hb hstep
  obtain ⟨hsame, hhost⟩ := (outcome_of_step hr hb hstep).sameInputs
  exact ⟨(passRead_sameInputs s).trans hsame, hhost⟩

/-- Settles O53: every outcome is a next state. -/
theorem busyStepNeverStops : Obligations.BusyStepNeverStops := by
  unfold Obligations.BusyStepNeverStops
  intro s hb
  by_cases hr : NoResetNext s
  · obtain ⟨t, ht, -⟩ := step_outcome hr hb
    exact ⟨t, ht⟩
  · obtain ⟨rest, hh⟩ : ∃ rest, s.host = .reset :: rest := by
      simpa [NoResetNext, List.head?_eq_some_iff] using hr
    exact ⟨_, step_reset hh⟩

theorem startOp_st (s : State) : s.startOp.st = .busy ∨ s.startOp.st = .err := by
  obtain h | h | ⟨i, -, -, h⟩ := startOp_cases s <;> rw [h]
  · exact .inr rfl
  · exact .inr rfl
  · exact .inl rfl

/-- A host move other than `START` and reset changes inputs only, and keeps the form of the buffers.
-/
theorem hostMove_differOnlyInInputs {m : HostMove} (hs : m ≠ .start) (hr : m ≠ .reset)
    (h : hostMove m s = .next t) :
    DifferOnlyInInputs s t ∧ (Memory.wf s.par s.mem = true → Memory.wf t.par t.mem = true) := by
  cases m with
  | start => exact absurd rfl hs
  | reset => exact absurd rfl hr
  | writeTin xs =>
    refine ⟨?_, fun hwf => hostWriteTin_keeps_wf hwf h⟩
    simp only [hostMove, hostWriteTin] at h
    split at h <;> cases h
    rfl
  | writeTinAt j x =>
    refine ⟨?_, fun hwf => hostWriteTinAt_keeps_wf hwf h⟩
    simp only [hostMove, hostWriteTinAt] at h
    split at h
    · cases h
    · split at h <;> cases h
      rfl
  | writeTinLen n =>
    refine ⟨?_, fun hwf => hostWriteTinLen_keeps_wf hwf h⟩
    simp only [hostMove, hostWriteTinLen] at h
    split at h <;> cases h
    rfl
  | writeInAt j b =>
    simp only [hostMove, hostWriteInAt] at h
    split at h <;> cases h
    exact ⟨rfl, id⟩
  | writeInLen n =>
    simp only [hostMove, hostWriteInLen] at h
    split at h <;> cases h
    exact ⟨rfl, id⟩
  | _ => cases h; exact ⟨rfl, id⟩

/-- Settles O49, by the four kinds of step. -/
theorem statusTransitions : Obligations.StatusTransitions := by
  unfold Obligations.StatusTransitions
  intro s t hstep hne
  obtain ⟨rest, hh, h⟩ | ⟨hr, hb, -⟩ | ⟨m, rest, hh, hm, hb, h⟩ | ⟨-, -, h⟩ := step_cases s
  · cases h.symm.trans hstep
    exact .inr (.inr ⟨⟨rest, hh⟩, rfl⟩)
  · obtain hended | hadv := (outcome_of_step hr hb hstep).ended_or_advances
    · exact .inr (.inl ⟨hb, hended⟩)
    · exact absurd (hadv.st_eq.trans (State.passRead_st s)) hne
  · rw [h] at hstep
    by_cases hs : m = .start
    · subst hs
      cases hstep
      exact .inl ⟨hb, ⟨rest, hh⟩, startOp_st _⟩
    · obtain ⟨hframe, -⟩ := hostMove_differOnlyInInputs hs hm hstep
      exact absurd (congrArg State.st hframe) hne
  · cases h.symm.trans hstep
    exact absurd rfl hne

/-! ### Errors (R231, R235, R245) -/

/-- What the cause says of its position (R231). -/
theorem StageCause.position (h : StageCause s e p) :
    e ≠ .eNone ∧ (e ≠ .eTrunc → e ≠ .eBackref → p = 0) ∧
      (e = .eTrunc ∨ e = .eBackref → p < s.inLen) := by
  obtain ⟨rfl | rfl, rfl⟩ | ⟨rfl | rfl, rfl, hrp⟩ := h
  · exact ⟨nofun, fun _ _ => rfl, fun h => h.elim nofun nofun⟩
  · exact ⟨nofun, fun _ _ => rfl, fun h => h.elim nofun nofun⟩
  · exact ⟨nofun, fun h => absurd rfl h, fun _ => hrp⟩
  · exact ⟨nofun, fun _ h => absurd rfl h, fun _ => hrp⟩

theorem StageCause.ne_eInvariant (h : StageCause s e p) : e ≠ .eInvariant := by
  obtain ⟨rfl | rfl, -⟩ | ⟨rfl | rfl, -⟩ := h <;> nofun

theorem Ends.err_ne_eInvariant (h : Ends s t) (he : s.err ≠ .eInvariant) : t.err ≠ .eInvariant := by
  cases h with
  | raised _ hcause => exact hcause.ne_eInvariant
  | finished hkeeps => exact fun h => he (hkeeps.err.symm.trans h)

/-- Settles O48: the blocks by their four outcomes, every other operation by how it ends. -/
theorem onlyHostOperandsBreakInvariant : Obligations.OnlyHostOperandsBreakInvariant := by
  unfold Obligations.OnlyHostOperandsBreakInvariant
  intro s t i hl hr hm he hexec
  cases hspace : i.space with
  | command =>
    obtain ⟨t', ht', hends⟩ := exec_ends hspace hl hr hm s
    cases hexec.symm.trans ht'
    exact hends.err_ne_eInvariant he
  | stream =>
    rw [exec_block hspace] at hexec
    cases hexec
    obtain ⟨-, h⟩ | ⟨-, h⟩ | ⟨-, h⟩ | ⟨o, -, hfits, h⟩ := blockEffect_cases hspace s <;> rw [h]
    · nofun
    · nofun
    · nofun
    · exact fun h' => he ((afterBlock_keeps hfits).err.symm.trans h')

/-- Error entry of a running operation: a cause raised over the inputs it was given. -/
theorem BusyOutcome.raised (h : BusyOutcome s t) (hb : s.st = .busy) (ht : t.st = .err) :
    ∃ u e p, SameInputs s u ∧ t = u.raise e p ∧
      (StageCause u e p ∨ (e = .eInvariant ∨ e = .eBadOp) ∧ p = 0) := by
  cases h with
  | ends h =>
    cases h with
    | raised hkeeps hcause => exact ⟨_, _, _, hkeeps.sameInputs, rfl, .inl hcause⟩
    | finished => cases ht
  | refused he => exact ⟨s, _, _, .refl s, rfl, .inr ⟨he, rfl⟩⟩
  | matched => cases ht
  | advances h => cases (h.st_eq.trans hb).symm.trans ht

/-- Settles O45: the writes of `State.raise`, and the position by the cause. -/
theorem errorEntryWithdrawsResults : Obligations.ErrorEntryWithdrawsResults := by
  unfold Obligations.ErrorEntryWithdrawsResults
  intro s t hr hb hstep ht
  obtain ⟨u, e, p, hsame, rfl, hcause⟩ :=
    (outcome_of_step hr hb hstep).raised ((State.passRead_st s).trans hb) ht
  have hinputs : SameInputs s (u.raise e p) :=
    (passRead_sameInputs s).trans (hsame.trans (raise_sameInputs e p u))
  have hpos : e ≠ .eNone ∧ (e ≠ .eTrunc → e ≠ .eBackref → p = 0) ∧
      (e = .eTrunc ∨ e = .eBackref → p < u.inLen) := by
    obtain hstage | ⟨rfl | rfl, rfl⟩ := hcause
    · exact hstage.position
    · exact ⟨nofun, fun _ _ => rfl, fun h => h.elim nofun nofun⟩
    · exact ⟨nofun, fun _ _ => rfl, fun h => h.elim nofun nofun⟩
  obtain ⟨hne, hzero, hinside⟩ := hpos
  refine ⟨hne, hzero, hinside, fun j => ?_, rfl, rfl, rfl, rfl, rfl, rfl, hinputs⟩
  rw [State.hostReadIn, if_neg (by simp), hinputs.inp]

/-! ### Termination (R152, R183, R266) -/

theorem run_succ_of_step (h : step s = .next t) (n : Nat) :
    Host.Core.run Sys2Proof.core (n + 1) s = Host.Core.run Sys2Proof.core n t := by
  have hcore : Sys2Proof.core.step s = .next t := h
  simp only [Host.Core.run, hcore]

theorem EndsWithin.of_step {n : Nat} (hstep : step s = .next t) (h : EndsWithin n t) :
    EndsWithin (n + 1) s := by
  obtain ⟨j, u, hj, hrun, hu⟩ := h
  exact ⟨j + 1, u, Nat.succ_le_succ hj, (run_succ_of_step hstep j).trans hrun, hu⟩

theorem EndsWithin.mono {m n : Nat} (h : EndsWithin m s) (hmn : m ≤ n) : EndsWithin n s := by
  obtain ⟨j, u, hj, hrun⟩ := h
  exact ⟨j, u, hj.trans hmn, hrun⟩

@[simp] theorem passRead_remaining (s : State) : s.passRead.remaining = s.remaining := by
  simp only [State.remaining, State.passRead_seq, passRead_midLen, passRead_tinLen, passRead_srcBuf,
    State.passRead_pos, State.passRead_rp, State.inLen, State.passRead_mem]

theorem mem_host_of_mem_passRead {m : HostMove} (h : m ∈ s.passRead.host) : m ∈ s.host := by
  unfold State.passRead at h
  split at h
  next rest hh => rw [hh]; exact List.mem_cons_of_mem _ h
  next => exact h

theorem noResetNext_of_notMem (h : .reset ∉ s.host) : NoResetNext s :=
  fun hhead => h (List.mem_of_head? hhead)

/-- With no reset pending, what remains to be done bounds the steps to the end. -/
theorem endsWithin_remaining (n : Nat) (hn : s.remaining ≤ n) (hb : s.st = .busy)
    (hhost : .reset ∉ s.host) : EndsWithin n s := by
  induction n generalizing s with
  | zero => have := one_le_remaining s; omega
  | succ n ih =>
    obtain ⟨t, hstep, hout⟩ := step_outcome (noResetNext_of_notMem hhost) hb
    obtain hended | hadv := hout.ended_or_advances
    · exact .of_step hstep ⟨0, t, Nat.zero_le n, rfl, hended⟩
    · have hlt := hadv.remaining_lt
      rw [passRead_remaining] at hlt
      have hst : t.st = .busy := hadv.st_eq.trans ((State.passRead_st s).trans hb)
      refine .of_step hstep (ih (by omega) hst fun hmem => hhost ?_)
      exact mem_host_of_mem_passRead (hadv.keeps.host ▸ hmem)

/-- Settles O55, by what remains to be done. -/
theorem operationsEnd : Obligations.OperationsEnd := by
  unfold Obligations.OperationsEnd
  exact fun s hb hhost => ⟨s.remaining, endsWithin_remaining _ (Nat.le_refl _) hb hhost⟩

/-- Settles O56: what remains to be done, in the three loops. -/
theorem stepBounds : Obligations.StepBounds := by
  unfold Obligations.StepBounds
  intro s hb hhost
  refine ⟨fun src h => ?_, fun h => ?_, fun h => ?_⟩
  all_goals
    refine endsWithin_remaining _ (Nat.le_of_eq ?_) hb hhost
    rw [State.remaining, h]

/-! ### A host that makes only total moves (log entry 11) -/

theorem hostMove_total {m : HostMove} (hm : m.total = true) (hw : s.par.tinWidth = none) :
    ∃ t, hostMove m s = .next t ∧ t.par = s.par ∧ t.host = s.host := by
  cases m with
  | start =>
    refine ⟨_, rfl, ?_⟩
    obtain h | h | ⟨i, -, -, h⟩ := startOp_cases s <;> rw [h] <;> exact ⟨rfl, rfl⟩
  | writeTin xs =>
    exact ⟨_, if_pos (List.all_eq_true.mpr fun t _ => by simp [hw, timingFits]), rfl, rfl⟩
  | writeTinAt | writeTinLen | writeInAt | writeInLen => cases hm
  | _ => exact ⟨_, rfl, rfl, rfl⟩

/-- A step under such a host answers a next state, with no move the host did not have. -/
theorem step_of_total (hw : s.par.tinWidth = none) (hhost : ∀ m ∈ s.host, m.total = true) :
    ∃ t, step s = .next t ∧ t.par = s.par ∧ ∀ m ∈ t.host, m ∈ s.host := by
  obtain ⟨rest, hh, h⟩ | ⟨hr, hb, -⟩ | ⟨m, rest, hh, -, -, h⟩ | ⟨-, -, h⟩ := step_cases s
  · exact ⟨_, h, rfl, fun m hm => hh ▸ List.mem_cons_of_mem _ hm⟩
  · obtain ⟨t, hstep, hout⟩ := step_outcome hr hb
    obtain ⟨⟨hpar, -⟩, hkept⟩ := hout.sameInputs
    exact ⟨t, hstep, hpar.trans (State.passRead_par s),
      fun m hm => mem_host_of_mem_passRead (hkept ▸ hm)⟩
  · obtain ⟨t, ht, hpar, hkept⟩ := hostMove_total (s := { s with host := rest })
      (hhost m (hh ▸ List.mem_cons_self)) hw
    refine ⟨t, h.trans ht, hpar, fun m' hm' => ?_⟩
    rw [hkept] at hm'
    exact hh ▸ List.mem_cons_of_mem _ hm'
  · exact ⟨s, h, rfl, fun _ => id⟩

/-- Settles O54, by induction on the length of the run. -/
theorem totalMovesNeverStop : Obligations.TotalMovesNeverStop := by
  unfold Obligations.TotalMovesNeverStop
  intro s k hw hhost
  induction k generalizing s with
  | zero => exact ⟨s, rfl⟩
  | succ k ih =>
    obtain ⟨t, hstep, hpar, hkept⟩ := step_of_total hw hhost
    obtain ⟨u, hrun⟩ := ih t (hpar ▸ hw) fun m hm => hhost m (hkept m hm)
    exact ⟨u, (run_succ_of_step hstep k).trans hrun⟩

end Sys2Proof.Machine

/-! PROOF. The invariant of the machine's states (10_state.md R22, R24, R29 to R33; 60_exceptions.md
R232): it holds after reset, and every kind of step keeps it. -/

namespace Sys2Proof.Machine

variable {s t : State} {e : Cause} {p : Nat}

theorem inv_resetWith (p : Config.Params) : (State.resetWith p).Inv where
  memory_wf := reset_memory_wf p
  rests _ := rfl
  err_iff := ⟨fun h => absurd rfl h, nofun⟩
  errpos_zero _ := rfl
  err_empty := nofun
  idle_empty _ := ⟨rfl, rfl, rfl⟩
  not_found _ := ⟨rfl, rfl⟩
  found := nofun
  busy_inputs := nofun
  cursor := nofun
  read_pointer := nofun

/-- Settles O57, field by field. -/
theorem resetEstablishesInv : Obligations.ResetEstablishesInv := by
  unfold Obligations.ResetEstablishesInv
  exact inv_resetWith

/-! ### The invariant at the end of an operation and inside one -/

theorem inv_raise (hwf : Memory.wf s.par s.mem = true) (he : e ≠ .eNone)
    (hp : e.hasPos = false → p = 0) : (s.raise e p).Inv where
  memory_wf := raise_keeps_wf hwf
  rests _ := rfl
  err_iff := ⟨fun _ => rfl, fun _ => he⟩
  errpos_zero := hp
  err_empty _ := ⟨rfl, rfl, rfl⟩
  idle_empty := nofun
  not_found _ := ⟨rfl, rfl⟩
  found := nofun
  busy_inputs := nofun
  cursor := nofun
  read_pointer := nofun

/-- The matcher's results are empty, or a match within its ranges (R31). -/
def State.MatchOk (s : State) : Prop :=
  (s.mFound = false → s.mLen = 0 ∧ s.mDist = 0) ∧
    (s.mFound = true → s.mLen.toNat ≤ 264 ∧ 1 ≤ s.mDist.toNat ∧ s.mDist.toNat ≤ 8192)

theorem inv_finish (hwf : Memory.wf s.par s.mem = true) (herr : s.err = .eNone)
    (hpos : s.errpos = 0) (hmatch : s.MatchOk) : s.finish.Inv where
  memory_wf := hwf
  rests _ := rfl
  err_iff := ⟨fun h => absurd herr h, nofun⟩
  errpos_zero _ := hpos
  err_empty := nofun
  idle_empty := nofun
  not_found := hmatch.1
  found h := ⟨rfl, hmatch.2 h⟩
  busy_inputs := nofun
  cursor := nofun
  read_pointer := nofun

theorem inv_of_busy (hb : s.st = .busy) (hwf : Memory.wf s.par s.mem = true)
    (herr : s.err = .eNone) (hpos : s.errpos = 0)
    (hmatch : s.mFound = false ∧ s.mLen = 0 ∧ s.mDist = 0)
    (hinputs : fits s.par.capTin s.tinLen = true ∧ fits s.par.capIn s.inLen = true)
    (hcur : s.CursorsOk) : s.Inv where
  memory_wf := hwf
  rests h := absurd hb h
  err_iff := ⟨fun h => absurd herr h, fun h => nomatch hb.symm.trans h⟩
  errpos_zero _ := hpos
  err_empty h := nomatch hb.symm.trans h
  idle_empty h := nomatch hb.symm.trans h
  not_found _ := hmatch.2
  found h := nomatch hmatch.1.symm.trans h
  busy_inputs _ := hinputs
  cursor := hcur.1
  read_pointer := hcur.2

/-- While an operation runs there is no error and no match. -/
theorem State.Inv.busy (h : s.Inv) (hb : s.st = .busy) :
    s.err = .eNone ∧ s.errpos = 0 ∧ s.mFound = false ∧ s.mLen = 0 ∧ s.mDist = 0 := by
  have herr : s.err = .eNone := by
    by_contra hne
    cases hb.symm.trans (h.err_iff.mp hne)
  have hfound : s.mFound = false := by
    by_contra hne
    obtain ⟨hst, -⟩ := h.found (by simpa using hne)
    cases hb.symm.trans hst
  exact ⟨herr, h.errpos_zero (by rw [herr]; rfl), hfound, h.not_found hfound⟩

theorem StageCause.pos_eq_zero (h : StageCause s e p) (hp : e.hasPos = false) : p = 0 := by
  obtain ⟨-, hzero, -⟩ := h.position
  exact hzero (fun h => by rw [h] at hp; cases hp) (fun h => by rw [h] at hp; cases hp)

/-! ### Steps of a running operation -/

theorem Ends.inv (h : Ends s t) (hb : s.st = .busy) (hinv : s.Inv) : t.Inv := by
  obtain ⟨herr, hpos, hfound, hlen, hdist⟩ := hinv.busy hb
  cases h with
  | raised hkeeps hcause =>
    exact inv_raise (hkeeps.wf hinv.memory_wf) hcause.position.1 hcause.pos_eq_zero
  | finished hkeeps =>
    refine inv_finish (hkeeps.wf hinv.memory_wf) (hkeeps.err.trans herr) (hkeeps.errpos.trans hpos)
      ⟨fun _ => ⟨hkeeps.mLen.trans hlen, hkeeps.mDist.trans hdist⟩, fun h => ?_⟩
    cases (hkeeps.mFound.trans hfound).symm.trans h

theorem Advances.inv (h : Advances s t) (hb : s.st = .busy) (hinv : s.Inv) : t.Inv := by
  obtain ⟨herr, hpos, hfound, hlen, hdist⟩ := hinv.busy hb
  obtain ⟨htin, hin⟩ := hinv.busy_inputs hb
  have hkeeps := h.keeps
  refine inv_of_busy (h.st_eq.trans hb) (hkeeps.wf hinv.memory_wf) (hkeeps.err.trans herr)
    (hkeeps.errpos.trans hpos)
    ⟨hkeeps.mFound.trans hfound, hkeeps.mLen.trans hlen, hkeeps.mDist.trans hdist⟩ ?_
    (h.cursors ⟨hinv.cursor, hinv.read_pointer⟩)
  rw [State.tinLen, hkeeps.par, hkeeps.tin, hkeeps.inLen]
  exact ⟨htin, hin⟩

/-- The numbers of a match are those of its registers, in range (R31, R121, R122). -/
theorem matchOk_setMatch (data : List Byte) (pos : Nat) (s : State) :
    (s.setMatch (matchAt data pos)).MatchOk := by
  cases hmatch : matchAt data pos with
  | none => exact ⟨fun _ => ⟨rfl, rfl⟩, nofun⟩
  | some best =>
    obtain ⟨len, dist⟩ := best
    obtain ⟨h1, hdist, -, hlen⟩ := matchAt_some hmatch
    refine ⟨nofun, fun _ => ?_⟩
    simp only [State.setMatch, BitVec.toNat_ofNat]
    omega

theorem BusyOutcome.inv (h : BusyOutcome s t) (hb : s.st = .busy) (hinv : s.Inv) : t.Inv := by
  cases h with
  | ends h => exact h.inv hb hinv
  | refused he =>
    obtain rfl | rfl := he
    · exact inv_raise hinv.memory_wf nofun fun _ => rfl
    · exact inv_raise hinv.memory_wf nofun fun _ => rfl
  | matched =>
    obtain ⟨herr, hpos, -⟩ := hinv.busy hb
    exact inv_finish (by simpa using hinv.memory_wf) (by simpa using herr) (by simpa using hpos)
      (matchOk_setMatch _ _ s)
  | advances h => exact h.inv hb hinv

/-! ### The host's moves -/

/-- The invariant does not look at the host. -/
theorem State.Inv.withHost (h : s.Inv) (host : List HostMove) :
    ({ s with host := host } : State).Inv where
  memory_wf := h.memory_wf
  rests := h.rests
  err_iff := h.err_iff
  errpos_zero := h.errpos_zero
  err_empty := h.err_empty
  idle_empty := h.idle_empty
  not_found := h.not_found
  found := h.found
  busy_inputs := h.busy_inputs
  cursor := h.cursor
  read_pointer := h.read_pointer

theorem State.Inv.passRead (h : s.Inv) : s.passRead.Inv := by
  unfold State.passRead
  split
  · exact h.withHost _
  · exact h

theorem inv_resetEvent (s : State) : s.resetEvent.Inv := (inv_resetWith s.par).withHost s.host

theorem cursorsOk_startSeq (g : Config.Grain) (i : Instr) (s : State) :
    ({ s.startEffects with seq := startSeq g i } : State).CursorsOk :=
  ⟨fun _ _ => ⟨Nat.le_refl 0, Nat.zero_le _⟩, fun _ _ => Nat.zero_le _⟩

theorem inv_startOp (hwf : Memory.wf s.par s.mem = true) : s.startOp.Inv := by
  have hcleared : Memory.wf s.startEffects.par s.startEffects.mem = true :=
    clearBuffers_keeps_wf (s := s) hwf
  obtain h | h | ⟨i, -, hfits, h⟩ := startOp_cases s <;> rw [h]
  · exact inv_raise hcleared nofun fun _ => rfl
  · exact inv_raise hcleared nofun fun _ => rfl
  · exact inv_of_busy rfl hcleared rfl rfl ⟨rfl, rfl, rfl⟩ hfits (cursorsOk_startSeq _ i s)

/-- Outside `BUSY` new inputs keep the invariant. -/
theorem State.Inv.of_differOnlyInInputs (h : s.Inv) (hb : s.st ≠ .busy)
    (hframe : DifferOnlyInInputs s t) (hwf : Memory.wf t.par t.mem = true) : t.Inv := by
  have hseq := h.rests hb
  rw [hframe] at hwf ⊢
  exact {
    memory_wf := hwf
    rests := h.rests
    err_iff := h.err_iff
    errpos_zero := h.errpos_zero
    err_empty := h.err_empty
    idle_empty := h.idle_empty
    not_found := h.not_found
    found := h.found
    busy_inputs := fun hb' => absurd hb' hb
    cursor := fun _ hs => nomatch hseq.symm.trans hs
    read_pointer := fun _ hs => nomatch hseq.symm.trans hs }

/-- Settles O58, by the four kinds of step. -/
theorem stepKeepsInv : Obligations.StepKeepsInv := by
  unfold Obligations.StepKeepsInv
  intro s t hinv hstep
  obtain ⟨rest, -, h⟩ | ⟨hr, hb, -⟩ | ⟨m, rest, -, hm, hb, h⟩ | ⟨-, -, h⟩ := step_cases s
  · cases h.symm.trans hstep
    exact inv_resetEvent _
  · exact (outcome_of_step hr hb hstep).inv ((State.passRead_st s).trans hb) hinv.passRead
  · rw [h] at hstep
    by_cases hs : m = .start
    · subst hs
      cases hstep
      exact inv_startOp (s := { s with host := rest }) hinv.memory_wf
    · obtain ⟨hframe, hwf⟩ := hostMove_differOnlyInInputs hs hm hstep
      exact (hinv.withHost rest).of_differOnlyInInputs hb hframe (hwf hinv.memory_wf)
  · cases h.symm.trans hstep
    exact hinv

end Sys2Proof.Machine

/-! PROOF. An operation does not look at what it does not read. `State.within` puts a state into
other surroundings (granularity, registers and inputs); an operation commutes with it when what its
row of the read table lists stays (10_state.md R35). The non-zero levels (42_block_encoder.md R151),
the read table itself, and the two granularities (00_scope.md R13) are three choices of
surroundings. -/

namespace Sys2Proof.Machine

/-- What surrounds a running operation: the granularity and everything that the host sets. -/
structure Surroundings where
  grain : Config.Grain
  op : BitVec 4
  level : BitVec 4
  posReg : Nat
  elen : BitVec 9
  edist : BitVec 14
  tin : List Nat
  inp : List Byte

/-- The surroundings of a state. -/
def State.surroundings (s : State) : Surroundings :=
  ⟨s.par.grain, s.op, s.level, s.posReg, s.elen, s.edist, s.mem.tin, s.mem.inp⟩

/-- The same core within other surroundings. -/
def State.within (c : Surroundings) (s : State) : State :=
  { s with
    par := { s.par with grain := c.grain }
    op := c.op, level := c.level, posReg := c.posReg, elen := c.elen, edist := c.edist
    mem := { s.mem with tin := c.tin, inp := c.inp } }

variable {c : Surroundings} {s t : State} {k : Sink} {src : Src} {i : Instr}

/-! ### Operations over buffers within other surroundings -/

@[simp] theorem within_sinkBuf (c : Surroundings) (k : Sink) (s : State) :
    (s.within c).sinkBuf k = s.sinkBuf k := by cases k <;> rfl
@[simp] theorem within_sinkCap (c : Surroundings) (k : Sink) (s : State) :
    (s.within c).sinkCap k = s.sinkCap k := by cases k <;> rfl
@[simp] theorem within_sink (c : Surroundings) (s : State) : (s.within c).sink = s.sink := rfl
@[simp] theorem within_setSink (c : Surroundings) (k : Sink) (b : List Byte) (s : State) :
    (s.within c).setSink k b = (s.setSink k b).within c := by cases k <;> rfl
@[simp] theorem within_afterBlock (c : Surroundings) (i : Instr) (out : List Byte) (s : State) :
    (s.within c).afterBlock i out = (s.afterBlock i out).within c := by
  rw [State.afterBlock, State.afterBlock, within_sink, within_setSink]
  rfl

theorem push_within (c : Surroundings) (k : Sink) (xs : List Byte) (s : State) :
    (s.within c).push k xs = (s.push k xs).map (State.within c) := by
  rw [State.push, State.push, within_sinkCap, within_sinkBuf, within_setSink]
  split <;> rfl

theorem pushTimings_within (c : Surroundings) (xs : List Timing) (s : State) :
    (s.within c).pushTimings xs = (s.pushTimings xs).map (State.within c) := by
  rw [State.pushTimings, State.pushTimings, apply_ite (Except.map (State.within c))]
  rfl

theorem serLoop_within (c : Surroundings) (k : Sink) (ts : List Nat) (s : State) :
    serLoop k ts (s.within c) = (serLoop k ts s).map (State.within c) := by
  induction ts generalizing s with
  | nil => rfl
  | cons x xs ih =>
    rw [serLoop, serLoop, push_within]
    cases s.push k (pairBytes (clamp x)) with
    | ok u => exact ih u
    | error e => rfl

theorem desLoop_within (c : Surroundings) : ∀ (bs : List Byte) (s : State),
    desLoop bs (s.within c) = (desLoop bs s).map (State.within c)
  | [], _ => rfl
  | [_], _ => rfl
  | b0 :: b1 :: rest, s => by
    rw [desLoop, desLoop, pushTimings_within]
    split
    · rfl
    · cases s.pushTimings [pairTiming b0 b1] with
      | ok u => exact desLoop_within c rest u
      | error e => rfl

theorem emitFinish_within (c : Surroundings) (r : Except Cause (List Byte)) (s : State) :
    (s.within c).emitFinish r = (s.emitFinish r).within c := by
  cases r with
  | error e => rfl
  | ok bytes =>
    rw [emitFinish_ok, emitFinish_ok, apply_ite (State.within c)]
    rfl

/-! ### The step machines within other surroundings (R35) -/

/-- The levels select the same encoder: both 0, or neither (R149, R151). -/
def SameEncoder (c : Surroundings) (s : State) : Prop := c.level = 0 ↔ s.level = 0

/-- The surroundings agree with a state on what the stage at `q` and those behind it read. -/
def ReadsAgree (c : Surroundings) (s : State) (q : Seq) : Prop :=
  match q with
  | .op => True
  | .ser => c.tin = s.mem.tin ∧ SameEncoder c s
  | .enc .inp => c.inp = s.mem.inp ∧ SameEncoder c s
  | .enc .mid => SameEncoder c s
  | .dec _ => c.inp = s.mem.inp
  | .des => True

theorem ReadsAgree.sameEncoder (h : ReadsAgree c s (.enc src)) : SameEncoder c s := by
  cases src with
  | inp => exact h.2
  | mid => exact h

theorem ReadsAgree.srcBuf (h : ReadsAgree c s (.enc src)) :
    (s.within c).srcBuf src = s.srcBuf src := by
  cases src with
  | inp => exact h.1
  | mid => rfl

theorem encStep_within (h : ReadsAgree c s (.enc src)) :
    encStep src (s.within c) = (encStep src s).within c := by
  have hlevel : (s.within c).level = 0 ↔ s.level = 0 := h.sameEncoder
  have hsrc := h.srcBuf
  have hrun : (s.within c).pendingRun src = s.pendingRun src := by
    rw [State.pendingRun, State.pendingRun, hsrc]
    rfl
  by_cases h0 : s.level = 0
  · rw [encStep_level_zero h0, encStep_level_zero (hlevel.mpr h0), hsrc, emitFinish_within]
  have h0' : (s.within c).level ≠ 0 := mt hlevel.mp h0
  by_cases hlt : s.pos < (s.srcBuf src).length
  · obtain ⟨len, dist, hmatch, h3⟩ | hno := match_or_noMatchAt (s.srcBuf src) s.pos
    · rw [encStep_take h0 hlt hmatch h3, encStep_take (s := s.within c) (src := src) h0'
        (by rwa [hsrc]) (by rwa [hsrc]) h3, hrun, apply_ite (State.within c)]
      rfl
    · rw [encStep_skip h0 hlt hno, encStep_skip (s := s.within c) (src := src) h0' (by rwa [hsrc])
        (by rwa [hsrc])]
      rfl
  · have hend := Nat.le_of_not_lt hlt
    rw [encStep_end h0 hend, encStep_end (s := s.within c) (src := src) h0' (by rwa [hsrc]), hrun,
      emitFinish_within]

theorem blockEffect_within (hspace : i.space = .stream) (hinp : c.inp = s.mem.inp) :
    blockEffect i (s.within c) = (blockEffect i s).within c := by
  have hlen : (s.within c).inLen - (s.within c).rp = s.inLen - s.rp :=
    congrArg (fun b : List Byte => b.length - s.rp) hinp
  by_cases hlt : s.inLen - s.rp < i.size
  · rw [blockEffect_truncated hspace hlt, blockEffect_truncated hspace (by rwa [hlen])]
    rfl
  have hle := Nat.le_of_not_lt hlt
  have hle' : i.size ≤ (s.within c).inLen - (s.within c).rp := by rwa [hlen]
  cases hresult : blockResult i (s.sinkBuf s.sink) with
  | error e =>
    rw [blockEffect_backref hspace hle hresult,
      blockEffect_backref hspace hle' (by simpa using hresult)]
    rfl
  | ok o =>
    cases hfits : fits (s.sinkCap s.sink) o.length with
    | false =>
      rw [blockEffect_capacity hspace hle hresult hfits,
        blockEffect_capacity hspace hle' (by simpa using hresult) (by simpa using hfits)]
      rfl
    | true =>
      rw [blockEffect_ok hspace hle hresult hfits,
        blockEffect_ok hspace hle' (by simpa using hresult) (by simpa using hfits),
        within_afterBlock]

theorem decStep_within (k : Sink) (hinp : c.inp = s.mem.inp) :
    decStep k (s.within c) = (decStep k s).within c := by
  have hsame : (s.within c).mem.inp = s.mem.inp := hinp
  have hlen : (s.within c).inLen = s.inLen := congrArg List.length hinp
  by_cases hrp : s.rp < s.inLen
  · cases hdec : decodeBlock (s.mem.inp.drop s.rp) with
    | error err =>
      rw [decStep_of_error k hrp hdec, decStep_of_error (s := s.within c) k (by rwa [hlen])
        (by rw [hsame]; exact hdec)]
      rfl
    | ok r =>
      obtain ⟨-, hspace, -⟩ := encode_of_decodeBlock hdec
      rw [decStep_of_decodeBlock k hdec, decStep_of_decodeBlock (s := s.within c) k
        (by rw [hsame]; exact hdec), blockEffect_within hspace hinp]
  · have hend := Nat.le_of_not_lt hrp
    cases k with
    | out =>
      rw [decStep_out_of_end hend, decStep_out_of_end (s := s.within c) (by rwa [hlen])]
      rfl
    | mid =>
      rw [decStep_mid_of_end hend, decStep_mid_of_end (s := s.within c) (by rwa [hlen])]
      rfl

theorem serStage_within (htin : c.tin = s.mem.tin) :
    serStage (s.within c) = (serStage s).within c := by
  have hloop : serLoop .mid (s.within c).mem.tin (s.within c) = _ :=
    (congrArg (serLoop .mid · (s.within c)) htin).trans (serLoop_within c .mid s.mem.tin s)
  cases h : serLoop .mid s.mem.tin s with
  | ok t => rw [h] at hloop; rw [serStage_of_ok h, serStage_of_ok hloop]; rfl
  | error e => rw [h] at hloop; rw [serStage_of_error h, serStage_of_error hloop]; rfl

theorem desStage_within (c : Surroundings) (s : State) :
    desStage (s.within c) = (desStage s).within c := by
  have hloop : desLoop (s.within c).mem.mid (s.within c) = _ := desLoop_within c s.mem.mid s
  cases h : desLoop s.mem.mid s with
  | ok t => rw [h] at hloop; rw [desStage_of_ok h, desStage_of_ok hloop]; rfl
  | error e => rw [h] at hloop; rw [desStage_of_error h, desStage_of_error hloop]; rfl

theorem microStep_within (h : ReadsAgree c s s.seq) :
    microStep (s.within c) = (microStep s).within c := by
  have hseq : (s.within c).seq = s.seq := rfl
  cases hq : s.seq with
  | op => simp only [microStep, hseq, hq]
  | ser =>
    rw [hq] at h hseq
    rw [microStep_ser hq, microStep_ser hseq, serStage_within h.1]
  | enc src =>
    rw [hq] at h hseq
    rw [microStep_enc hq, microStep_enc hseq, encStep_within h]
  | dec k =>
    rw [hq] at h hseq
    rw [microStep_dec hq, microStep_dec hseq, decStep_within k h]
  | des =>
    rw [hq] at hseq
    rw [microStep_des hq, microStep_des hseq, desStage_within]

/-- The next stage reads nothing that the stages from the present one on do not read. -/
theorem ReadsAgree.next {q q' : Seq} (h : ReadsAgree c s q) (hkeeps : Keeps s t)
    (hnext : NextStage q q') : ReadsAgree c t q' := by
  have hencoder : SameEncoder c s → SameEncoder c t := by
    rw [SameEncoder, SameEncoder, hkeeps.level]
    exact id
  cases q with
  | op => exact absurd hnext id
  | ser => cases hnext; exact hencoder h.2
  | enc src =>
    cases hnext
    cases src with
    | inp => exact ⟨h.1.trans hkeeps.inp.symm, hencoder h.2⟩
    | mid => exact hencoder h
  | dec k =>
    obtain rfl | ⟨-, rfl⟩ := hnext
    · exact Eq.trans h hkeeps.inp.symm
    · trivial
  | des => exact absurd hnext id

theorem runBusy_within (n : Nat) (hseq : s.seq ≠ .op) (h : ReadsAgree c s s.seq) :
    runBusy n (s.within c) = (runBusy n s).within c := by
  by_cases hb : s.st = .busy
  · induction n generalizing s with
    | zero => rfl
    | succ n ih =>
      rw [runBusy_succ hb, runBusy_succ (s := s.within c) hb, microStep_within h]
      obtain hends | hadv := microStep_outcome hseq
      · have hst := st_ne_busy hends.done_or_err
        rw [runBusy_of_not_busy hst, runBusy_of_not_busy (s := (microStep s).within c) hst]
      · exact ih hadv.next.ne_op.2 (h.next hadv.keeps hadv.next) (hadv.st_eq.trans hb)
  · rw [runBusy_of_not_busy hb, runBusy_of_not_busy (s := s.within c) hb]

/-! ### Whole operations within other surroundings (R35) -/

/-- The rows of the read table: like `RowInputsAgree`, with the levels only as far as the encoder
looks at them. -/
def RowAgrees (i : Instr) (c : Surroundings) (s : State) : Prop :=
  match i with
  | .ser => c.tin = s.mem.tin
  | .des => c.inp = s.mem.inp
  | .wmatch => c.inp = s.mem.inp ∧ c.posReg = s.posReg
  | .emitl => c.inp = s.mem.inp
  | .emitr => c.elen = s.elen ∧ c.edist = s.edist
  | .comp => c.inp = s.mem.inp ∧ SameEncoder c s
  | .decomp => c.inp = s.mem.inp
  | .encraw => c.tin = s.mem.tin ∧ SameEncoder c s
  | .decraw => c.inp = s.mem.inp
  | .lit _ | .ref _ _ _ | .refx _ _ _ => False

theorem exec_ser_within (htin : c.tin = s.mem.tin) (h : exec .ser s = .next t) :
    exec .ser (s.within c) = .next (t.within c) := by
  have hloop : serLoop .out (s.within c).mem.tin (s.within c) = _ :=
    (congrArg (serLoop .out · (s.within c)) htin).trans (serLoop_within c .out s.mem.tin s)
  cases hl : serLoop .out s.mem.tin s with
  | ok u =>
    rw [hl] at hloop
    cases (exec_ser_of_ok hl).symm.trans h
    exact exec_ser_of_ok hloop
  | error e =>
    rw [hl] at hloop
    cases (exec_ser_of_error hl).symm.trans h
    exact exec_ser_of_error hloop

theorem exec_des_within (hinp : c.inp = s.mem.inp) (h : exec .des s = .next t) :
    exec .des (s.within c) = .next (t.within c) := by
  have hloop : desLoop (s.within c).mem.inp (s.within c) = _ :=
    (congrArg (desLoop · (s.within c)) hinp).trans (desLoop_within c s.mem.inp s)
  cases hl : desLoop s.mem.inp s with
  | ok u =>
    rw [hl] at hloop
    cases (exec_des_of_ok hl).symm.trans h
    exact exec_des_of_ok hloop
  | error e =>
    rw [hl] at hloop
    cases (exec_des_of_error hl).symm.trans h
    exact exec_des_of_error hloop

theorem exec_wmatch_within (hinp : c.inp = s.mem.inp) (hpos : c.posReg = s.posReg)
    (h : exec .wmatch s = .next t) : exec .wmatch (s.within c) = .next (t.within c) := by
  have hlen : (s.within c).inLen = s.inLen := congrArg List.length hinp
  have hreg : (s.within c).posReg = s.posReg := hpos
  by_cases hlt : s.inLen < s.posReg
  · cases (exec_wmatch_of_lt hlt).symm.trans h
    exact exec_wmatch_of_lt (s := s.within c) (by rwa [hlen, hreg])
  · have hle := Nat.le_of_not_lt hlt
    cases (exec_wmatch_of_le hle).symm.trans h
    rw [exec_wmatch_of_le (s := s.within c) (by rwa [hlen, hreg])]
    have hmatch : matchAt (s.within c).mem.inp (s.within c).posReg =
        matchAt s.mem.inp s.posReg := by
      rw [hreg]
      exact congrArg (matchAt · s.posReg) hinp
    rw [hmatch]
    cases matchAt s.mem.inp s.posReg <;> rfl

/-- An operation commutes with surroundings that agree on its row. -/
theorem exec_within (hrow : RowAgrees i c s) (h : exec i s = .next t) :
    exec i (s.within c) = .next (t.within c) := by
  cases i with
  | ser => exact exec_ser_within hrow h
  | des => exact exec_des_within hrow h
  | wmatch => exact exec_wmatch_within hrow.1 hrow.2 h
  | emitl =>
    cases h
    have hblock : emitLit (s.within c).mem.inp = emitLit s.mem.inp := congrArg emitLit hrow
    rw [exec_emitl, hblock, emitFinish_within]
    rfl
  | emitr =>
    cases h
    have hlen : (s.within c).elen = s.elen := hrow.1
    have hdist : (s.within c).edist = s.edist := hrow.2
    rw [exec_emitr, hlen, hdist, emitFinish_within]
    rfl
  | comp =>
    cases h
    have hlen : (s.within c).inLen = s.inLen := congrArg List.length hrow.1
    rw [exec_comp, hlen]
    exact congrArg _ (runBusy_within (s := s.atComp) _ (by simp [State.atComp]) hrow)
  | decomp =>
    cases h
    have hlen : (s.within c).inLen = s.inLen := congrArg List.length hrow
    rw [exec_decomp, hlen]
    exact congrArg _ (runBusy_within (s := s.atDecomp) _ (by simp [State.atDecomp]) hrow)
  | encraw =>
    cases h
    have hlen : (s.within c).tinLen = s.tinLen := congrArg List.length hrow.1
    rw [exec_encraw, hlen]
    exact congrArg _ (runBusy_within (s := s.atEncraw) _ (by simp [State.atEncraw]) hrow)
  | decraw =>
    cases h
    have hlen : (s.within c).inLen = s.inLen := congrArg List.length hrow
    rw [exec_decraw, hlen]
    exact congrArg _ (runBusy_within (s := s.atDecraw) _ (by simp [State.atDecraw]) hrow)
  | lit data => exact absurd hrow id
  | ref lf dhi dlo => exact absurd hrow id
  | refx dhi cc dlo => exact absurd hrow id

/-- A state that differs in inputs only is the same core within its own surroundings. -/
theorem eq_within_of_differOnlyInInputs {s' : State} (h : DifferOnlyInInputs s s') :
    s' = s.within s'.surroundings := by
  rw [h]
  rfl

theorem rowAgrees_of_rowInputsAgree {s' : State} (h : RowInputsAgree i s s') :
    RowAgrees i s'.surroundings s := by
  have hencoder : s'.level = s.level → SameEncoder s'.surroundings s := fun hlevel =>
    iff_of_eq (congrArg (· = 0) hlevel)
  cases i with
  | comp => exact ⟨h.1, hencoder h.2⟩
  | encraw => exact ⟨h.1, hencoder h.2⟩
  | _ => exact h

/-- Settles O44: the other state is the same core within surroundings that agree on the row. -/
theorem operationsReadOnlyTheirRow : Obligations.OperationsReadOnlyTheirRow := by
  unfold Obligations.OperationsReadOnlyTheirRow
  intro i s s' t hframe hrow hexec
  refine ⟨t.within s'.surroundings, ?_, rfl, rfl, rfl, rfl, rfl, rfl, rfl, rfl⟩
  have hwithin := exec_within (rowAgrees_of_rowInputsAgree hrow) hexec
  rwa [← eq_within_of_differOnlyInInputs hframe] at hwithin

/-! ### The non-zero levels (R151) -/

/-- Surroundings of one state, put around another with the same inputs, change what they change. -/
theorem within_level_of_sameInputs (h : SameInputs s t) (b : BitVec 4) :
    t.within { s.surroundings with level := b } = { t with level := b } := by
  obtain ⟨hpar, hop, -, hpos, helen, hedist, htin, hinp⟩ := h
  simp only [State.within, State.surroundings, ← hpar, ← hop, ← hpos, ← helen, ← hedist, ← htin,
    ← hinp]

theorem sameInputs_of_exec (hspace : i.space = .command) (h : exec i s = .next t) :
    SameInputs s t := by
  obtain ⟨t', ht', hout⟩ := exec_outcome hspace s
  cases h.symm.trans ht'
  exact hout.sameInputs.1

theorem exec_level {b : BitVec 4} (hi : i = .comp ∨ i = .encraw) (hs : s.level ≠ 0) (hb : b ≠ 0)
    (h : exec i s = .next t) : exec i { s with level := b } = .next { t with level := b } := by
  have hencoder : SameEncoder { s.surroundings with level := b } s :=
    ⟨fun h => absurd h hb, fun h => absurd h hs⟩
  have hrow : RowAgrees i { s.surroundings with level := b } s := by
    obtain rfl | rfl := hi <;> exact ⟨rfl, hencoder⟩
  have hsame : SameInputs s t := by
    have hspace : i.space = .command := by obtain rfl | rfl := hi <;> rfl
    exact sameInputs_of_exec hspace h
  have hwithin := exec_within hrow h
  rwa [within_level_of_sameInputs hsame] at hwithin

/-- Settles O33: the encoder looks at the level only to tell 0 from the rest. -/
theorem nonzeroLevelsAlike : Obligations.NonzeroLevelsAlike := by
  unfold Obligations.NonzeroLevelsAlike
  exact fun s t a b ha hb => ⟨exec_level (s := { s with level := a }) (.inl rfl) ha hb,
    exec_level (s := { s with level := a }) (.inr rfl) ha hb⟩

/-! ### The two granularities (00_scope.md R13) -/

/-- Another granularity is one choice of surroundings. -/
theorem within_grain_of_sameInputs (h : SameInputs s t) (g : Config.Grain) :
    t.within { s.surroundings with grain := g } = t.withGrain g := by
  obtain ⟨-, hop, hlevel, hpos, helen, hedist, htin, hinp⟩ := h
  simp only [State.within, State.surroundings, State.withGrain, ← hop, ← hlevel, ← hpos, ← helen,
    ← hedist, ← htin, ← hinp]

/-- No operation looks at the granularity. -/
theorem exec_withGrain (hspace : i.space = .command) (h : exec i s = .next t) (g : Config.Grain) :
    exec i (s.withGrain g) = .next (t.withGrain g) := by
  have hrow : RowAgrees i { s.surroundings with grain := g } s := by
    cases i with
    | lit | ref | refx => cases hspace
    | wmatch | emitr => exact ⟨rfl, rfl⟩
    | comp | encraw => exact ⟨rfl, Iff.rfl⟩
    | _ => rfl
  have hwithin := exec_within hrow h
  rwa [within_grain_of_sameInputs (sameInputs_of_exec hspace h)] at hwithin

theorem passRead_of_no_read (h : s.host.head? ≠ some .read) : s.passRead = s := by
  unfold State.passRead
  split
  next hh => simp [hh] at h
  next => rfl

/-- With no read and no reset next, the machine's steps run a step machine to any number of its
steps. -/
theorem exists_run_eq_runBusy (n : Nat) (hseq : s.seq ≠ .op) (hr : NoResetNext s)
    (hread : s.host.head? ≠ some .read) :
    ∃ k, Host.Core.run Sys2Proof.core k s = .next (runBusy n s) := by
  induction n generalizing s with
  | zero => exact ⟨0, rfl⟩
  | succ n ih =>
    by_cases hb : s.st = .busy
    · have hstep : step s = .next (microStep s) := by
        rw [step_micro hr hb hseq, passRead_of_no_read hread]
      rw [runBusy_succ hb]
      obtain hends | hadv := microStep_outcome hseq
      · have hst := st_ne_busy hends.done_or_err
        exact ⟨1, by rw [run_succ_of_step hstep, runBusy_of_not_busy hst]; rfl⟩
      · obtain ⟨k, hk⟩ := ih hadv.next.ne_op.2 (by rwa [NoResetNext, hadv.keeps.host])
          (by rwa [hadv.keeps.host])
        exact ⟨k + 1, (run_succ_of_step hstep k).trans hk⟩
    · exact ⟨0, by rw [runBusy_of_not_busy hb]; rfl⟩

/-- After `START` a looping operation is its step machine, run to some number of its steps. -/
theorem exec_startEffects_eq_runBusy (h : startSeq .stepwise i ≠ .op) (s : State) :
    ∃ n, exec i s.startEffects =
      .next (runBusy n { s.startEffects with seq := startSeq .stepwise i }) := by
  cases i with
  | comp | decomp | encraw | decraw => exact ⟨_, rfl⟩
  | _ => exact absurd rfl h

/-- A step at the operation code, with no read and no reset next, is `exec`. -/
theorem step_eq_exec (hop : decodeOp s.op = .ok i) (hb : s.st = .busy) (hseq : s.seq = .op)
    (hr : NoResetNext s) (hread : s.host.head? ≠ some .read) : step s = exec i s := by
  rw [stepRunsOperation s i hr hb hseq hop, passRead_of_no_read hread]

/-- Under stepwise granularity the machine's steps reach what the whole operation gives. -/
theorem exists_run_stepwise (hop : decodeOp s.op = .ok i) (hr : NoResetNext s)
    (hread : s.host.head? ≠ some .read) (hexec : exec i s.startEffects = .next t) :
    ∃ k, Host.Core.run Sys2Proof.core k
      { s.startEffects with seq := startSeq .stepwise i } = .next t := by
  by_cases hseq : startSeq .stepwise i = .op
  · rw [hseq]
    have hstep : step s.startEffects = .next t :=
      (step_eq_exec (s := s.startEffects) hop rfl rfl hr hread).trans hexec
    exact ⟨1, run_succ_of_step hstep 0⟩
  · obtain ⟨n, hn⟩ := exec_startEffects_eq_runBusy hseq s
    cases hexec.symm.trans hn
    exact exists_run_eq_runBusy n hseq hr hread

/-- Settles O59: `START` ends at once under both granularities, or one whole step and the step
machine give the same state. -/
theorem stepMachinesRefineWholeOperations : Obligations.StepMachinesRefineWholeOperations := by
  unfold Obligations.StepMachinesRefineWholeOperations
  intro s hb hr hread
  cases hop : decodeOp s.op with
  | error e =>
    rw [startOp_of_badOp (s := s.withGrain .whole) hop,
      startOp_of_badOp (s := s.withGrain .stepwise) hop]
    exact ⟨0, 0, _, Nat.zero_le 1, rfl, rfl, nofun⟩
  | ok i =>
    by_cases hfits : fits s.par.capTin s.tinLen = true ∧ fits s.par.capIn s.inLen = true
    · rw [startOp_of_fits (s := s.withGrain .whole) hop hfits,
        startOp_of_fits (s := s.withGrain .stepwise) hop hfits]
      have hspace := space_of_decodeOp hop
      obtain ⟨t, hexec, hout⟩ := exec_outcome hspace (s.withGrain .whole).startEffects
      have hstep : step (s.withGrain .whole).startEffects = .next t :=
        (step_eq_exec (s := (s.withGrain .whole).startEffects) hop rfl rfl hr hread).trans hexec
      obtain ⟨k, hk⟩ := exists_run_stepwise (s := s.withGrain .stepwise) hop hr hread
        (exec_withGrain hspace hexec .stepwise)
      refine ⟨1, k, t, Nat.le_refl 1, run_succ_of_step hstep 0, hk, ?_⟩
      obtain hended | hadv := hout.ended_or_advances
      · exact st_ne_busy hended
      · exact absurd rfl hadv.next.ne_op.1
    · rw [startOp_of_full (s := s.withGrain .whole) hop hfits,
        startOp_of_full (s := s.withGrain .stepwise) hop hfits]
      exact ⟨0, 0, _, Nat.zero_le 1, rfl, rfl, nofun⟩

end Sys2Proof.Machine
